-- ==== Sys2Proof/Word.lean ====
section
/-! DEFINITION. The word types of the LFSR core (00_scope.md R6, R8, R10, R12, R15, R16) and the two operand forms
that the instruction word's mode bit and operand field spell (30_encoding.md R61, R62). -/

namespace Sys2Proof

/-- A memory cell, the accumulator, the control register or an instruction word: 16 bits, unsigned (R6, R11, R16). -/
abbrev Word := BitVec 16

/-- The sequencer's state (R8) or one I/O unit (R12): 8 bits. -/
abbrev Byte := BitVec 8

/-- The operand field `k` of an instruction word: 12 bits (R10). -/
abbrev Field := BitVec 12

/-- The two operand forms every opcode takes (R62), with the operand field. -/
inductive Operand where
  /-- `#k`, mode bit 0: the effective operand is the field itself. -/
  | imm (k : Field)
  /-- `@k`, mode bit 1: the effective operand is the memory cell the field names. -/
  | ind (k : Field)
deriving DecidableEq, Repr

/-- The mode bit `m` of the instruction word (R61). -/
def Operand.mode : Operand → Bool
  | .imm _ => false
  | .ind _ => true

/-- The field `k` of the instruction word (R61). -/
def Operand.field : Operand → Field
  | .imm k => k
  | .ind k => k

end Sys2Proof
end

