-- ==== Sys2Proof/Config.lean ====
section
/-! DEFINITION. What an implementation fixes: the eight operations, the type of the opcode assignment (the parameter
OPCODE_MAP, 00_scope.md R14), this hardware's values of the reset-time parameters (R7, R13; 10_state.md R33), and the
free values. The spec leaves no result of an instruction undefined; what it calls "any value" is each answer of the host
(93_implementation_defined.md I2), so the free values are streams of answers (notes/assumptions/24.md). -/

namespace Sys2Proof

/-- The eight operations of the dispatch table, in its order (30_encoding.md R64). -/
inductive Operation where
  | and | xor | shl | shr | load | store | jmp | jz
deriving DecidableEq, Repr

/-- The parameter OPCODE_MAP (R14): a bijection between the eight values of bits 14..12 and the eight operations. -/
abbrev OpcodeMap := BitVec 3 ≃ Operation

/-- N − 1 for this hardware, whose memory has N = 8192 cells (R7, decision D7). -/
def Config.lastCell : Word := 8191

/-- INIT_CONTROL for this hardware (R33, decision D6). -/
def Config.initControl : Word := 0

/-- INIT_ACC for this hardware (R33, decision D5). -/
def Config.initAcc : Word := 0

/-- DESIGN CHOICE (notes/assumptions/5.md): TRACE_EN in `State.reset`; the spec gives this input no default (R33). -/
def Config.traceEn : Bool := false

namespace Machine

/-- The host's answer to an input request (R172). -/
inductive InAnswer where
  | unit (u : Byte)
  | endOfInput
  | failure
deriving DecidableEq, Repr

/-- The host's answer to an output or trace offer (R173, R174). -/
inductive Ack where
  | ok | failure
deriving DecidableEq, Repr

end Machine

/-- FREE VALUE (I2, I3; notes/assumptions/24.md): the n-th answer of a host that draws its answers at the input port;
`none` is "not yet". It has no body: nothing is known of any of its values. -/
opaque Config.drawnInput : Nat → Option Machine.InAnswer

/-- FREE VALUE (I2, I3; notes/assumptions/24.md): the same at the output port. -/
opaque Config.drawnOutput : Nat → Option Machine.Ack

/-- FREE VALUE (I2, I3; notes/assumptions/24.md): the same at the trace port. -/
opaque Config.drawnTrace : Nat → Option Machine.Ack

end Sys2Proof
end

