-- ==== Sys2Proof/Syntax.lean ====
section
/-! DEFINITION. The instructions of the LFSR core: one constructor per row of spec/opcode_table.json, each with the
operand form and field that every opcode takes (30_encoding.md R62). SHL and SHR do not use their effective operand
(R66) and keep it all the same, since it is part of the word. -/

namespace Sys2Proof

/-- An instruction (30_encoding.md R64). -/
inductive Instr where
  | and (o : Operand)
  | xor (o : Operand)
  | shl (o : Operand)
  | shr (o : Operand)
  | load (o : Operand)
  | store (o : Operand)
  | jmp (o : Operand)
  | jz (o : Operand)
deriving DecidableEq, Repr

/-- The operation an instruction performs. -/
def Instr.operation : Instr → Operation
  | .and _ => .and
  | .xor _ => .xor
  | .shl _ => .shl
  | .shr _ => .shr
  | .load _ => .load
  | .store _ => .store
  | .jmp _ => .jmp
  | .jz _ => .jz

/-- The operand of an instruction. -/
def Instr.operand : Instr → Operand
  | .and o => o
  | .xor o => o
  | .shl o => o
  | .shr o => o
  | .load o => o
  | .store o => o
  | .jmp o => o
  | .jz o => o

/-- The instruction made of an operation and an operand. -/
def Instr.make : Operation → Operand → Instr
  | .and, o => .and o
  | .xor, o => .xor o
  | .shl, o => .shl o
  | .shr, o => .shr o
  | .load, o => .load o
  | .store, o => .store o
  | .jmp, o => .jmp o
  | .jz, o => .jz o

/-- JMP and JZ, the two operations that can transfer control (43_control.md). -/
def Instr.isTransfer : Instr → Bool
  | .jmp _ => true
  | .jz _ => true
  | .and _ => false
  | .xor _ => false
  | .shl _ => false
  | .shr _ => false
  | .load _ => false
  | .store _ => false

end Sys2Proof
end

