-- ==== Sys2Proof/WellFormed.lean ====
section
/-! DEFINITION. Well-formedness. A term of `Instr` needs no check: its fields are bit vectors of the encoding's own
widths, and every word is a valid instruction (30_encoding.md R65). What can be ill-formed is an instruction as an
assembler line writes it, with a number for the operand (R68); this file gives that form and its two checks. -/

namespace Sys2Proof

/-- An instruction as written (R68): with no operand, with `#k` or with `@k`. -/
inductive AsmInstr where
  | bare (op : Operation)
  | imm (op : Operation) (k : Nat)
  | ind (op : Operation) (k : Nat)
deriving DecidableEq, Repr

/-- SHL and SHR may be written without an operand (R68). -/
def Operation.bareAllowed : Operation → Bool
  | .shl => true
  | .shr => true
  | .and => false
  | .xor => false
  | .load => false
  | .store => false
  | .jmp => false
  | .jz => false

/-- The assembler's checks (R68): only SHL and SHR go without an operand, and `k` is "a number 0 to 4095". -/
def AsmInstr.wellFormed : AsmInstr → Bool
  | .bare op => op.bareAllowed
  | .imm _ k => decide (k < 4096)
  | .ind _ k => decide (k < 4096)

end Sys2Proof
end

