-- ==== Sys2Proof/Decode.lean ====
section
/-! DEFINITION. Decoding and encoding of the one 16-bit format (30_encoding.md R60, R61, R64), the assembler's view of
a word (R66, R68) and the host's entry `decodeTableWord`. Decoding cannot fail (R65), so it has no rejection to name. -/

namespace Sys2Proof

/-- OPCODE_MAP's default: the dispatch table's order, AND 0 to JZ 7 (R14, R64, decision D1). -/
def defaultOpcodeMap : OpcodeMap where
  toFun c := match c.toNat with
    | 0 => .and
    | 1 => .xor
    | 2 => .shl
    | 3 => .shr
    | 4 => .load
    | 5 => .store
    | 6 => .jmp
    | _ => .jz
  invFun
    | .and => 0
    | .xor => 1
    | .shl => 2
    | .shr => 3
    | .load => 4
    | .store => 5
    | .jmp => 6
    | .jz => 7
  left_inv := by decide
  right_inv op := by cases op <;> decide

/-- `m = w[15]` (R61). -/
def modeBit (w : Word) : Bool := w.getLsbD 15

/-- `op = w[14:12]` (R61). -/
def opField (w : Word) : BitVec 3 := w.extractLsb' 12 3

/-- `k = w[11:0]` (R61). -/
def operandField (w : Word) : Field := w.extractLsb' 0 12

/-- The operand form the mode bit selects, with the operand field (R61, R62). -/
def operandOf (w : Word) : Operand :=
  if modeBit w then .ind (operandField w) else .imm (operandField w)

/-- Decode a word under an opcode assignment (R61, R64, R85); total (R65). -/
def decodeWith (map : OpcodeMap) (w : Word) : Instr :=
  Instr.make (map (opField w)) (operandOf w)

/-- Decode a word under the default assignment. -/
def decode (w : Word) : Instr := decodeWith defaultOpcodeMap w

/-- Encode an instruction under an opcode assignment: `m ++ op ++ k` (R61, R64). -/
def encodeWith (map : OpcodeMap) (i : Instr) : Word :=
  BitVec.ofBool i.operand.mode ++ (map.symm i.operation ++ i.operand.field)

/-- Encode an instruction under the default assignment. -/
def encode (i : Instr) : Word := encodeWith defaultOpcodeMap i

/-- The word an assembler emits for a written instruction, if it passes the checks (R68); SHL and SHR without an
operand give their canonical encodings (R66). -/
def assemble (a : AsmInstr) : Option Word :=
  if a.wellFormed then
    some (match a with
      | .bare op => encode (Instr.make op (.imm 0))
      | .imm op k => encode (Instr.make op (.imm (BitVec.ofNat 12 k)))
      | .ind op k => encode (Instr.make op (.ind (BitVec.ofNat 12 k))))
  else none

/-- How a disassembler prints a word: SHL and SHR "with no operand when m = 0 and k = 0, and with their operand
otherwise" (R68). -/
def disassemble (w : Word) : AsmInstr :=
  let i := decode w
  match i.operand with
  | .imm k => if i.operation.bareAllowed && k == 0 then .bare i.operation else .imm i.operation k.toNat
  | .ind k => .ind i.operation k.toNat

/-- The instruction word the host's `(nbits, w)` numbering spells: one word, bit 0 least significant, the bits above
`nbits` zero. -/
def tableWord (nbits w : Nat) : Word := BitVec.ofNat 16 (w % 2 ^ nbits)

/-- The host's entry to the decoder. An instruction is one 16-bit word (R60), so more bits than that spell none. -/
def decodeTableWord (nbits w : Nat) : Option Instr :=
  if nbits ≤ 16 then some (decode (tableWord nbits w)) else none

end Sys2Proof
end

