-- ==== Sys2Proof/Machine/State.lean ====
section
/-! DEFINITION. The state of the LFSR core (10_state.md R20 to R33), the host's side of its transactions as plain data
(60_exceptions.md R177), the reasons a step can stop, and the state after reset. -/

namespace Sys2Proof.Machine

/-- The memory array: N cells of 16 bits (10_state.md R27). `last` is N − 1, so that 1 <= N <= 65536 (R7) holds of
every value. `cells` lists (index, word) with indices strictly rising; an unlisted cell holds 0 (R33, R191) and no
listed cell does (`Memory.wf`). -/
structure Memory where
  last  : Word
  cells : List (Nat × Word)
deriving DecidableEq, Repr

/-- N, the number of cells (R7). -/
def Memory.size (m : Memory) : Nat := m.last.toNat + 1

/-- STATUS (R28). -/
inductive Status where
  | run | halt | faultIn | faultOut | faultTrace
deriving DecidableEq, Repr

/-- WAIT: the transaction a held step waits for (R30). -/
inductive Wait where
  | none | waitTrace | waitIn | waitOut
deriving DecidableEq, Repr

/-- The trace record `(CTRL, w, ACC, op)` (40_sequencer_and_step.md R93). -/
structure TraceRecord where
  addr : Word
  word : Word
  acc  : Word
  op   : BitVec 3
deriving DecidableEq, Repr

/-- One answered transaction. -/
inductive Event where
  | input (a : InAnswer)
  | output (u : Byte) (a : Ack)
  | trace (r : TraceRecord) (a : Ack)
deriving DecidableEq, Repr

/-- What a host answers once its listed answers are used up (notes/assumptions/24.md): nothing ever again (I3); the same
answers, one or more, round and round for ever; or free draws for ever, the values of the port's opaque stream from
index `n` on (I2). -/
inductive After (α : Type) where
  | never
  | repeats (first : Option α) (rest : List (Option α))
  | drawn (n : Nat)
deriving DecidableEq, Repr

/-- What the host will answer on one port, call by call: the listed answers first, then `after`. `none` is "no answer
yet" and holds the step for one call of `step`. -/
structure Answers (α : Type) where
  listed : List (Option α)
  after  : After α
deriving DecidableEq, Repr

/-- A host that gives the listed answers and falls silent. -/
def Answers.ofList {α : Type} (l : List (Option α)) : Answers α := { listed := l, after := .never }

/-- The host's side of the channels, the MODEL's own fields: what the host will answer on each port, and `log`, what was
answered, oldest first (DESIGN CHOICE, safe for claims about every state: notes/assumptions/7.md, 8.md). How many requests of one run the host
answers is the host's (R32, R177), and so are the answers (I2): finitely many, a round repeated for ever, or free draws
for ever are all values of these fields (DESIGN CHOICE, safe: notes/assumptions/24.md), so that an endless run whose
every transaction is answered (R198) stays endless. -/
structure Env where
  inAnswers    : Answers InAnswer
  outAnswers   : Answers Ack
  traceAnswers : Answers Ack
  log          : List Event
deriving DecidableEq, Repr

/-- The machine: the six pieces of architectural state (R20) and the host's side. -/
structure State where
  acc     : Word
  ctrl    : Word
  mem     : Memory
  status  : Status
  traceEn : Bool
  wait    : Wait
  env     : Env
deriving DecidableEq, Repr

/-- Faults that stop the model: there is none. The spec's three fatal failures are values of STATUS that a step
reaches as a next state (R165; notes/assumptions/11.md), every address names a cell (R41) and every word is an
instruction (R65). Nobody raises one, which is safe. -/
inductive Fault where
deriving DecidableEq, Repr

/-- Refusals. -/
inductive Refusal where
  /-- An instruction without a meaning yet, raised by `exec`'s arm for it and safe. Every instruction of this hardware
  has its meaning, so no arm raises it. -/
  | notModelled (mnemonic : String)
deriving DecidableEq, Repr

/-- The state after reset with this hardware's default inputs (R33, R190): INIT_ACC, INIT_CONTROL, an image of zeros,
RUN, NONE. TRACE_EN and the host's answers are named in notes/assumptions/5.md, 7.md and 8.md. -/
def State.reset : State where
  acc     := Config.initAcc
  ctrl    := Config.initControl
  mem     := { last := Config.lastCell, cells := [] }
  status  := .run
  traceEn := Config.traceEn
  wait    := .none
  env     := { inAnswers := .ofList [], outAnswers := .ofList [], traceAnswers := .ofList [], log := [] }

end Sys2Proof.Machine
end

