-- ==== Sys2Proof/Machine/Ops.lean ====
section
/-! DEFINITION. The named operations over the state: memory cells (20_memory.md R41), the sequencer
(40_sequencer_and_step.md R80, R82), the commit of a step (R91), the end of a step by a fatal failure
(60_exceptions.md R165) or by the halt (43_control.md R142), the three transactions with the host (R172 to R174), and
the routing of loads and stores (20_memory.md R43, R44). There is no return from a fault (R166). -/

namespace Sys2Proof.Machine

/-- The word at index `i` of a list of cells; an unlisted cell holds 0. -/
def cellAt : List (Nat × Word) → Nat → Word
  | [], _ => 0
  | (j, v) :: rest, i => if j = i then v else cellAt rest i

/-- Write index `i` of a rising list of cells, keeping it rising and free of zeros. -/
def setCell : List (Nat × Word) → Nat → Word → List (Nat × Word)
  | [], i, v => if v = 0 then [] else [(i, v)]
  | (j, x) :: rest, i, v =>
    if i < j then (if v = 0 then (j, x) :: rest else (i, v) :: (j, x) :: rest)
    else if i = j then (if v = 0 then rest else (i, v) :: rest)
    else (j, x) :: setCell rest i v

/-- The canonical form of a memory: indices strictly rising, each below N, and no listed word 0. -/
abbrev Memory.wf (m : Memory) : Prop :=
  (m.cells.map Prod.fst).Pairwise (· < ·) ∧ ∀ c ∈ m.cells, c.1 < m.size ∧ c.2 ≠ 0

/-- `MemRead(a) = M[a mod N]` (R41). -/
def memRead (m : Memory) (a : Nat) : Word := cellAt m.cells (a % m.size)

/-- `MemWrite(a, v) : M[a mod N] <- v` (R41). -/
def memWrite (m : Memory) (a : Nat) (v : Word) : Memory :=
  { m with cells := setCell m.cells (a % m.size) v }

/-- The feedback mask POLY (00_scope.md R9). -/
def poly : Byte := 0xB8

/-- The sequencer function `L` (R80). -/
def seqNext (x : Byte) : Byte :=
  if x.getLsbD 0 then (x >>> 1) ^^^ poly else x >>> 1

/-- `Linv`, the inverse of `L` (R81 (c)). -/
def seqPrev (t : Byte) : Byte :=
  if t.getLsbD 7 then ((t ^^^ poly) <<< 1) ||| 1 else t <<< 1

/-- The candidate `zext_16(L(c[7:0]))` of a control value (R82). -/
def candidateOf (c : Word) : Word := (seqNext (c.setWidth 8)).setWidth 16

/-- The candidate next control value of a step (R82). -/
def candidate (s : State) : Word := candidateOf s.ctrl

/-- The fetched word `MemRead(CTRL)`, never an I/O access (R46, R84). -/
def fetchWord (s : State) : Word := memRead s.mem s.ctrl.toNat

/-- The routing selector, bit 15 of a data address (R43 to R45). -/
def isIo (a : Word) : Bool := a.getLsbD 15

/-- A completed step's writes, taking effect together (R91); the step is then held on nothing (R30). -/
def commit (acc ctrl : Word) (mem : Memory) (s : State) : State :=
  { s with acc := acc, ctrl := ctrl, mem := mem, wait := .none }

/-- `raise Fault(code)`: nothing is committed, STATUS takes the code (R165). -/
def raiseFault (code : Status) (s : State) : State := { s with status := code, wait := .none }

/-- `halt`: nothing is committed, STATUS becomes HALT (R142). -/
def haltRun (s : State) : State := { s with status := .halt, wait := .none }

/-- How a part of a step ends: with a value, in the state the step goes on from, or with the step over for this call
(held, or ended by a fatal failure), in the state it leaves. -/
inductive Access (α : Type) where
  | done (v : α) (s : State)
  | stopped (s : State)
deriving DecidableEq, Repr

/-- The host's next answer on a port, if it gives one now, and its answers after that (I2, I3). `draw` is the port's
free stream. -/
def nextAnswer {α : Type} (draw : Nat → Option α) (a : Answers α) : Option α × Answers α :=
  match a.listed, a.after with
  | x :: rest, _ => (x, { a with listed := rest })
  | [], .never => (none, a)
  | [], .repeats x rest => (x, { a with listed := rest })
  | [], .drawn n => (draw n, { a with after := .drawn (n + 1) })

/-- The next answer at the input port and the answers after it. -/
def nextInput (s : State) : Option InAnswer × Answers InAnswer := nextAnswer Config.drawnInput s.env.inAnswers

/-- The next answer at the output port and the answers after it. -/
def nextOutput (s : State) : Option Ack × Answers Ack := nextAnswer Config.drawnOutput s.env.outAnswers

/-- The next answer at the trace port and the answers after it. -/
def nextTrace (s : State) : Option Ack × Answers Ack := nextAnswer Config.drawnTrace s.env.traceAnswers

/-- `InRead()` (R172): hold, or take the host's answer. -/
def inRead (s : State) : Access InAnswer :=
  match nextInput s with
  | (none, rest) => .stopped { s with wait := .waitIn, env := { s.env with inAnswers := rest } }
  | (some a, rest) =>
    .done a { s with wait := .none, env := { s.env with inAnswers := rest, log := s.env.log ++ [.input a] } }

/-- `OutWrite(u)` (R173): hold, or take the host's answer. -/
def outWrite (u : Byte) (s : State) : Access Ack :=
  match nextOutput s with
  | (none, rest) => .stopped { s with wait := .waitOut, env := { s.env with outAnswers := rest } }
  | (some a, rest) =>
    .done a { s with wait := .none, env := { s.env with outAnswers := rest, log := s.env.log ++ [.output u a] } }

/-- `TraceWrite(rec)` (R174): hold, or take the host's answer. -/
def traceWrite (r : TraceRecord) (s : State) : Access Ack :=
  match nextTrace s with
  | (none, rest) => .stopped { s with wait := .waitTrace, env := { s.env with traceAnswers := rest } }
  | (some a, rest) =>
    .done a { s with wait := .none, env := { s.env with traceAnswers := rest, log := s.env.log ++ [.trace r a] } }

/-- `LoadRouted(a)` (R43): the input channel if `a[15] = 1`, else memory. -/
def loadRouted (a : Word) (s : State) : Access Word :=
  if isIo a then
    match inRead s with
    | .done (.unit u) s' => .done (u.setWidth 16) s'
    | .done .endOfInput s' => .stopped (raiseFault .faultIn s')
    | .done .failure s' => .stopped (raiseFault .faultIn s')
    | .stopped s' => .stopped s'
  else .done (memRead s.mem a.toNat) s

/-- `StoreRouted(a, v)` (R44), answering the memory the step commits: the output channel if `a[15] = 1`, and the
memory as it was; else the written memory. -/
def storeRouted (a v : Word) (s : State) : Access Memory :=
  if isIo a then
    match outWrite (v.setWidth 8) s with
    | .done .ok s' => .done s'.mem s'
    | .done .failure s' => .stopped (raiseFault .faultOut s')
    | .stopped s' => .stopped s'
  else .done (memWrite s.mem a.toNat v) s

/-- The record of a step (R93). -/
def traceRecord (s : State) : TraceRecord :=
  { addr := s.ctrl, word := fetchWord s, acc := s.acc, op := opField (fetchWord s) }

/-- Whether a step's trace write still lies ahead: a step held on a channel has made it already (R87, R90 (d), R174). -/
def Wait.traceDue : Wait → Bool
  | .none => true
  | .waitTrace => true
  | .waitIn => false
  | .waitOut => false

/-- Part 5 of the step (R87): with TRACE_EN, one record, a hold until the host answers, and FAULT_TRACE on a failure. -/
def tracePart (s : State) : Access Unit :=
  if s.traceEn && s.wait.traceDue then
    match traceWrite (traceRecord s) s with
    | .done .ok s' => .done () s'
    | .done .failure s' => .stopped (raiseFault .faultTrace s')
    | .stopped s' => .stopped s'
  else .done () s

end Sys2Proof.Machine
end

