-- ==== Sys2Proof/Machine/Operands.lean ====
section
/-! DEFINITION. The two operand forms (30_encoding.md R62, R63). -/

namespace Sys2Proof.Machine

/-- The effective operand (R63): the field, zero-extended, or the cell it names; never an I/O access (R47). -/
def effOperand (o : Operand) (s : State) : Word :=
  match o with
  | .imm k => k.setWidth 16
  | .ind k => memRead s.mem k.toNat

end Sys2Proof.Machine
end

