-- ==== Sys2Proof/Machine/Alu.lean ====
section
/-! DEFINITION. AND, XOR, SHL, SHR (41_alu.md): ACC takes the result and CTRL the candidate; none can fail (R100). -/

namespace Sys2Proof.Machine

/-- AND (R101). -/
def execAnd (o : Operand) (s : State) : Host.Outcome State Fault Refusal :=
  .next (commit (s.acc &&& effOperand o s) (candidate s) s.mem s)

/-- XOR (R102). -/
def execXor (o : Operand) (s : State) : Host.Outcome State Fault Refusal :=
  .next (commit (s.acc ^^^ effOperand o s) (candidate s) s.mem s)

/-- SHL (R103); the operand is read without effect and not used (R66). -/
def execShl (_o : Operand) (s : State) : Host.Outcome State Fault Refusal :=
  .next (commit (s.acc <<< 1) (candidate s) s.mem s)

/-- SHR (R104), a logical shift (decision D4); the operand is read without effect and not used (R66). -/
def execShr (_o : Operand) (s : State) : Host.Outcome State Fault Refusal :=
  .next (commit (s.acc >>> 1) (candidate s) s.mem s)

end Sys2Proof.Machine
end

