-- ==== Sys2Proof/Machine/Flags.lean ====
section
/-! DEFINITION. The hardware has no flag (10_state.md R36), so no flag is computed. This file holds the two tests that
stand where another machine reads flags: JZ's test of ACC and JMP's halt sentinel (41_alu.md R105). -/

namespace Sys2Proof.Machine

/-- JZ's test `ACC == 0`, on all 16 bits (43_control.md R141). -/
def accIsZero (s : State) : Bool := s.acc == 0

/-- JMP's test `eff == CTRL`, on all 16 bits and with no reduction modulo N (43_control.md R142, C4). -/
def isSelfJump (eff : Word) (s : State) : Bool := eff == s.ctrl

end Sys2Proof.Machine
end

