-- ==== Sys2Proof/Machine/Control.lean ====
section
/-! DEFINITION. JMP with its halt sentinel, and JZ (43_control.md). -/

namespace Sys2Proof.Machine

/-- JMP (R140, R142): a jump to the current control value halts; any other takes the effective operand. -/
def execJmp (o : Operand) (s : State) : Host.Outcome State Fault Refusal :=
  if isSelfJump (effOperand o s) s then .next (haltRun s)
  else .next (commit s.acc (effOperand o s) s.mem s)

/-- JZ (R141): never halts. -/
def execJz (o : Operand) (s : State) : Host.Outcome State Fault Refusal :=
  .next (commit s.acc (if accIsZero s then effOperand o s else candidate s) s.mem s)

end Sys2Proof.Machine
end

