-- ==== Sys2Proof/Machine/LoadStore.lean ====
section
/-! DEFINITION. LOAD and STORE (42_load_store.md): the effective operand is the data address (R122), routed on its bit
15 to memory or to a channel (20_memory.md R43, R44). -/

namespace Sys2Proof.Machine

/-- LOAD (R120). -/
def execLoad (o : Operand) (s : State) : Host.Outcome State Fault Refusal :=
  match loadRouted (effOperand o s) s with
  | .done v s' => .next (commit v (candidate s) s'.mem s')
  | .stopped s' => .next s'

/-- STORE (R121). -/
def execStore (o : Operand) (s : State) : Host.Outcome State Fault Refusal :=
  match storeRouted (effOperand o s) s.acc s with
  | .done m s' => .next (commit s.acc (candidate s) m s')
  | .stopped s' => .next s'

end Sys2Proof.Machine
end

