-- ==== Sys2Proof/Machine/Dispatch.lean ====
section
/-! DEFINITION. The dispatch of part 6 of the step (40_sequencer_and_step.md R88): one arm per instruction, each one
call of its meaning. -/

namespace Sys2Proof.Machine

def exec (i : Instr) (s : State) : Host.Outcome State Fault Refusal :=
  match i with
  | .and o => Sys2Proof.Machine.execAnd o s
  | .xor o => Sys2Proof.Machine.execXor o s
  | .shl o => Sys2Proof.Machine.execShl o s
  | .shr o => Sys2Proof.Machine.execShr o s
  | .load o => Sys2Proof.Machine.execLoad o s
  | .store o => Sys2Proof.Machine.execStore o s
  | .jmp o => Sys2Proof.Machine.execJmp o s
  | .jz o => Sys2Proof.Machine.execJz o s

end Sys2Proof.Machine
end

