-- ==== Sys2Proof/Machine/Cycle.lean ====
section
/-! DEFINITION. The whole step (40_sequencer_and_step.md R83 to R91) under an opcode assignment: guard on STATUS,
fetch, decode, trace, dispatch. A call is one step, or one call's worth of a hold (R90 (d)). -/

namespace Sys2Proof.Machine

/-- `Step()` (R89), enabled only while STATUS is RUN (R83); every other status is terminal and unchanged (10_state.md
R35, 60_exceptions.md R166). A held step begins again: it has committed nothing, so it fetches the same word, and
`tracePart` does not send its record twice. -/
def cycle (map : OpcodeMap) (s : State) : Host.Outcome State Fault Refusal :=
  match s.status with
  | .run =>
    match tracePart s with
    | .done _ s' => exec (decodeWith map (fetchWord s)) s'
    | .stopped s' => .next s'
  | .halt => .next s
  | .faultIn => .next s
  | .faultOut => .next s
  | .faultTrace => .next s

/-- Store a word where the next step fetches: cell `CTRL mod N` (R84). -/
def placeFetchWord (s : State) (w : Word) : State := { s with mem := memWrite s.mem s.ctrl.toNat w }

end Sys2Proof.Machine
end

