-- ==== Sys2Proof/Machine/Step.lean ====
section
/-! DEFINITION. The step of this hardware: `cycle` under the default opcode assignment (00_scope.md R14), and the
host's way to place an instruction where the next step fetches it. -/

namespace Sys2Proof.Machine

/-- One step (40_sequencer_and_step.md R89). -/
def step (s : State) : Host.Outcome State Fault Refusal := cycle defaultOpcodeMap s

/-- `s` with an instruction word in the cell the next step fetches, and nothing else changed. -/
def State.withFetchWord (s : State) (nbits w : Nat) : State := placeFetchWord s (tableWord nbits w)

end Sys2Proof.Machine
end

