-- ==== Sys2Proof/Asm.lean ====
section
/-! DEFINITION. The spec's own assembler notation above one instruction (30_encoding.md R68, R69; decisions D17, D18):
lines, their placement along the sequencer, and the pseudo-instructions. The core never sees it. Labels and the text
form of a line are left out (notes/assumptions/21.md). -/

namespace Sys2Proof.Asm

/-- A line of a listing: an instruction, the pseudo-instruction HALT (a jump to the line's own address), a data word or
`.org` (R68, R69). -/
inductive Line where
  | instr (a : AsmInstr)
  | halt
  | word (v : Word)
  | org (a : Word)
deriving DecidableEq, Repr

/-- `NOP` (R69). -/
def nop : List Line := [.instr (.imm .xor 0)]

/-- `CLR` (R69). -/
def clr : List Line := [.instr (.imm .and 0)]

/-- `LI c` (R69). -/
def li (c : Nat) : List Line := [.instr (.imm .and 0), .instr (.imm .xor c)]

/-- `IN @p` (R69). -/
def inp (p : Nat) : List Line := [.instr (.ind .load p)]

/-- `OUT @p` (R69). -/
def out (p : Nat) : List Line := [.instr (.ind .store p)]

/-- `JMPL t`, whose target stands in cell `p` (R69). -/
def jmpl (p : Nat) : List Line := [.instr (.ind .jmp p)]

/-- The word a line puts at its address, and whether the next line follows it along the sequencer: "an assembler places
each next line at the sequencer successor of the previous line's address, unless `.org` says otherwise or the previous
line is a JMP" (R69). -/
def lineWord (a : Word) : Line → Option (Word × Bool)
  | .instr i => (assemble i).map fun w => (w, (decode w).operation != .jmp)
  | .halt => (assemble (.imm .jmp a.toNat)).map fun w => (w, false)
  | .word v => some (v, true)
  | .org _ => none

/-- Place a listing: the (address, word) pairs in order. After a JMP a line needs an `.org`, since R69 gives it no
address; a listing without one is refused, and so is one with an ill-formed instruction. -/
def place : Option Word → List Line → Option (List (Word × Word))
  | _, [] => some []
  | _, .org a :: rest => place (some a) rest
  | none, _ :: _ => none
  | some a, l :: rest =>
    match lineWord a l with
    | none => none
    | some (w, follows) =>
      (place (if follows then some (Machine.candidateOf a) else none) rest).map fun ps => (a, w) :: ps

end Sys2Proof.Asm
end

