-- ==== Sys2Proof/Machine/Boot.lean ====
section
/-! DEFINITION. Reset and what the host sets up before it is released (70_reset_and_hazards.md R190 to R193;
60_exceptions.md R177, R179), and the memory the source's loader leaves (R191). Reset is the host's move, not a step
(notes/assumptions/16.md). -/

namespace Sys2Proof.Machine

/-- The reset-time inputs (00_scope.md R13, R193): the preload writes made while reset is held, in order, the initial
registers, TRACE_EN, and the host that is bound to the three ports. -/
structure ResetInputs where
  preload      : List (Word × Word)
  initControl  : Word
  initAcc      : Word
  traceEn      : Bool
  inAnswers    : Answers InAnswer
  outAnswers   : Answers Ack
  traceAnswers : Answers Ack
deriving DecidableEq, Repr

/-- The preload port: `M[pl_addr mod N] <- pl_data` (R178), once for each write. -/
def preloadCells : List (Word × Word) → Memory → Memory
  | [], m => m
  | (a, v) :: rest, m => preloadCells rest (memWrite m a.toNat v)

/-- Reset, from its assertion to its release (R190): the run and any open transaction are abandoned, memory keeps
what it held but for the preload writes, and everything else takes its reset value. A new run's log is empty. -/
def resetRun (inp : ResetInputs) (s : State) : State where
  acc     := inp.initAcc
  ctrl    := inp.initControl
  mem     := preloadCells inp.preload s.mem
  status  := .run
  traceEn := inp.traceEn
  wait    := .none
  env     := { inAnswers := inp.inAnswers, outAnswers := inp.outAnswers, traceAnswers := inp.traceAnswers, log := [] }

/-- A memory of `last + 1` cells, all 0: what the loader starts from (R191). -/
def zeroMemory (last : Word) : Memory := { last := last, cells := [] }

/-- The loader from cell `i` on (R191): a token that is no number (`none`) ends it, and so does a full memory. -/
def loadFrom : Nat → List (Option Word) → Memory → Memory
  | _, [], m => m
  | _, none :: _, m => m
  | i, some v :: rest, m => if i < m.size then loadFrom (i + 1) rest (memWrite m i v) else m

/-- The image a listing leaves in a memory of zeros (R191). -/
def loadImage (last : Word) (tokens : List (Option Word)) : Memory := loadFrom 0 tokens (zeroMemory last)

end Sys2Proof.Machine
end

