-- ==== Sys2Proof/Machine/Ports.lean ====
section
/-! DEFINITION. What the host can observe: the outputs of 60_exceptions.md R178 and 10_state.md R34 as functions of the
state. The signal names are the spec's own rendering (decision D15) and nothing here depends on clocks (R5 (e)). -/

namespace Sys2Proof.Machine

/-- The 3-bit status output (10_state.md R28, decision D10). -/
def statusCode : Status → BitVec 3
  | .run => 0
  | .halt => 1
  | .faultIn => 2
  | .faultOut => 3
  | .faultTrace => 4

/-- `in_req`: an input transaction is open (R178). -/
def inReq (s : State) : Bool := s.wait == .waitIn

/-- `out_valid` and `out_data`: the open output transaction's unit, `ACC[7:0]` (R173, R178). -/
def outOffer (s : State) : Option Byte := if s.wait == .waitOut then some (s.acc.setWidth 8) else none

/-- `tr_valid` and the record it offers (R174, R178). -/
def traceOffer (s : State) : Option TraceRecord := if s.wait == .waitTrace then some (traceRecord s) else none

/-- The read-back port, "defined only while STATUS != RUN" (R178, R34). -/
def readBack (s : State) (addr : Word) : Option Word :=
  if s.status == .run then none else some (memRead s.mem addr.toNat)

end Sys2Proof.Machine
end

