-- ==== Sys2Proof/Safety.lean ====
section
/-! DEFINITION. The terms claims are made in: the invariant of the machine, when a step completes, an implicit run
(40_sequencer_and_step.md R92), the end and the result of a run (70_reset_and_hazards.md R200), and the state without
its tracing (60_exceptions.md R174). -/

namespace Sys2Proof.Machine

/-- The instruction the next step fetches. -/
def fetched (map : OpcodeMap) (s : State) : Instr := decodeWith map (fetchWord s)

/-- WAIT names a transaction that the step at CTRL makes (10_state.md R30, R35; 60_exceptions.md R172 to R174): a core
is held only in RUN, on the trace port only with TRACE_EN, on the input channel only at a LOAD whose effective operand
has bit 15 set, and on the output channel only at such a STORE. -/
abbrev HoldOk (map : OpcodeMap) (s : State) : Prop :=
  (s.wait ≠ .none → s.status = .run) ∧
  (s.wait = .waitTrace → s.traceEn = true) ∧
  (s.wait = .waitIn → (fetched map s).operation = .load ∧ isIo (effOperand (fetched map s).operand s) = true) ∧
  (s.wait = .waitOut → (fetched map s).operation = .store ∧ isIo (effOperand (fetched map s).operand s) = true)

/-- The invariant every step keeps: canonical memory, and a WAIT that fits the step. -/
abbrev State.Inv (map : OpcodeMap) (s : State) : Prop := s.mem.wf ∧ HoldOk map s

/-- One call of the step from `s` completes an instruction and leaves `t` (R90 (a)). -/
def Completes (map : OpcodeMap) (s t : State) : Prop :=
  s.status = .run ∧ cycle map s = .next t ∧ t.status = .run ∧ t.wait = .none

/-- The step at `s` does not transfer control: it is no JMP and no taken JZ (R92). -/
def FallsThrough (map : OpcodeMap) (s : State) : Prop :=
  (fetched map s).operation ≠ .jmp ∧ ((fetched map s).operation = .jz → s.acc ≠ 0)

/-- `n` completed steps in a row, none of which transfers control (R92). -/
def ImplicitRun (map : OpcodeMap) : Nat → State → State → Prop
  | 0, s, t => t = s
  | n + 1, s, t => ∃ u, Completes map s u ∧ FallsThrough map s ∧ ImplicitRun map n u t

/-- What a host has left to answer on a port after `n` calls for it. -/
def answersLeft {α : Type} (draw : Nat → Option α) : Nat → Answers α → Answers α
  | 0, a => a
  | n + 1, a => answersLeft draw n (nextAnswer draw a).2

/-- What a host answers to call number `n` for a port, counted from 0. -/
def answerAt {α : Type} (draw : Nat → Option α) (a : Answers α) (n : Nat) : Option α :=
  (nextAnswer draw (answersLeft draw n a)).1

/-- The answer to call number `n` at the input port. -/
def inputAt (s : State) (n : Nat) : Option InAnswer := answerAt Config.drawnInput s.env.inAnswers n

/-- The answer to call number `n` at the output port. -/
def outputAt (s : State) (n : Nat) : Option Ack := answerAt Config.drawnOutput s.env.outAnswers n

/-- The answer to call number `n` at the trace port. -/
def traceAt (s : State) (n : Nat) : Option Ack := answerAt Config.drawnTrace s.env.traceAnswers n

/-- The step at `s` makes a channel transaction: a LOAD or a STORE whose effective operand has bit 15 set (R172,
R173). -/
abbrev UsesChannel (map : OpcodeMap) (s : State) : Prop :=
  ((fetched map s).operation = .load ∨ (fetched map s).operation = .store) ∧
    isIo (effOperand (fetched map s).operand s) = true

/-- The step at `s` is a JMP to its own address, the halt (R142). -/
abbrev SelfJump (map : OpcodeMap) (s : State) : Prop :=
  (fetched map s).operation = .jmp ∧ effOperand (fetched map s).operand s = s.ctrl

/-- The units the input channel gave (R200). -/
def unitsGiven : List Event → List Byte
  | [] => []
  | .input (.unit u) :: rest => u :: unitsGiven rest
  | .input .endOfInput :: rest => unitsGiven rest
  | .input .failure :: rest => unitsGiven rest
  | .output _ _ :: rest => unitsGiven rest
  | .trace _ _ :: rest => unitsGiven rest

/-- The units the output channel took, those it answered `Ok` (R200). -/
def unitsTaken : List Event → List Byte
  | [] => []
  | .output u .ok :: rest => u :: unitsTaken rest
  | .output _ .failure :: rest => unitsTaken rest
  | .input _ :: rest => unitsTaken rest
  | .trace _ _ :: rest => unitsTaken rest

/-- Whether an event is a trace transaction. -/
def Event.isTrace : Event → Bool
  | .input _ => false
  | .output _ _ => false
  | .trace _ _ => true

/-- The result of a run (R200, 10_state.md R34). -/
structure RunResult where
  status : Status
  ctrl   : Word
  acc    : Word
  mem    : Memory
  taken  : List Byte
  given  : List Byte
deriving DecidableEq, Repr

/-- The result, once STATUS has left RUN (R200). -/
def runResult (s : State) : Option RunResult :=
  if s.status == .run then none
  else some { status := s.status, ctrl := s.ctrl, acc := s.acc, mem := s.mem,
              taken := unitsTaken s.env.log, given := unitsGiven s.env.log }

/-- A successful end: "a claim about a result takes `STATUS == HALT` as its premise" (R200). -/
def Succeeded (s : State) : Prop := s.status = .halt

/-- `s` with tracing off and the trace port's part of the host's side taken away (R174, R29). -/
def untraced (s : State) : State :=
  { s with
    traceEn := false
    wait := if s.wait = .waitTrace then .none else s.wait
    env := { s.env with traceAnswers := .ofList [], log := s.env.log.filter fun e => !e.isTrace } }

end Sys2Proof.Machine
end

