-- ==== Sys2Proof/Certificates/Slice0/Obligations.lean ====
section
/-! DEFINITION. The statements for the provers. Each docstring names the rule of spec/ it formalises, or says which of
its clauses rest on the spec's own decisions (92_eei_decisions.md) or on the model's choices (notes/assumptions/). -/

open Sys2Proof Sys2Proof.Machine

/-! ## Encoding -/

/-- Decoding an encoded instruction gives it back, under every opcode assignment (30_encoding.md R61, R62, R14). -/
def Obligations.DecodeOfEncode : Prop :=
  ∀ (map : OpcodeMap) (i : Instr), decodeWith map (encodeWith map i) = i

/-- Encoding what a word decodes to gives the word back, under every opcode assignment: no bit of a word is dropped, and
no two words mean the same instruction (R61, R65). -/
def Obligations.EncodeOfDecode : Prop :=
  ∀ (map : OpcodeMap) (w : Word), encodeWith map (decodeWith map w) = w

/-- R61: m is bit 15 (0 immediate, 1 indirect), op is bits 14 to 12 and k is bits 11 to 0. The fields are computed here
by division of the word's number. -/
def Obligations.FieldsOfTheWord : Prop :=
  ∀ (map : OpcodeMap) (w : Word),
    (decodeWith map w).operation = map (BitVec.ofNat 3 (w.toNat / 4096)) ∧
    (decodeWith map w).operand =
      if w.toNat < 32768 then .imm (BitVec.ofNat 12 w.toNat) else .ind (BitVec.ofNat 12 w.toNat)

/-- The match and mask table of R64. The numbering is the spec's decision D1, the default of OPCODE_MAP
(notes/assumptions/3.md). -/
def Obligations.DefaultOpcodeTable : Prop :=
  ∀ w : Word,
    ((decode w).operation = .and ↔ w &&& 0x7000 = 0x0000) ∧
    ((decode w).operation = .xor ↔ w &&& 0x7000 = 0x1000) ∧
    ((decode w).operation = .shl ↔ w &&& 0x7000 = 0x2000) ∧
    ((decode w).operation = .shr ↔ w &&& 0x7000 = 0x3000) ∧
    ((decode w).operation = .load ↔ w &&& 0x7000 = 0x4000) ∧
    ((decode w).operation = .store ↔ w &&& 0x7000 = 0x5000) ∧
    ((decode w).operation = .jmp ↔ w &&& 0x7000 = 0x6000) ∧
    ((decode w).operation = .jz ↔ w &&& 0x7000 = 0x7000)

/-- Words of 95_test_vectors.md section 3, one for each instruction (numbering: decision D1). -/
def Obligations.SampleWordsDecode : Prop :=
  decode 0x0000 = .and (.imm 0) ∧ decode 0x1003 = .xor (.imm 3) ∧ decode 0x2000 = .shl (.imm 0) ∧
  decode 0xB123 = .shr (.ind 0x123) ∧ decode 0xC100 = .load (.ind 0x100) ∧ decode 0xD100 = .store (.ind 0x100) ∧
  decode 0x605C = .jmp (.imm 0x05C) ∧ decode 0xFFFF = .jz (.ind 0xFFF)

/-- "every word prints and re-assembles to itself" (R68, decision D17), and the two words that print without an operand.
The notation is the model's choice of R68 without its line text (notes/assumptions/21.md); the numbers of SHL and SHR
are decision D1. -/
def Obligations.DisassembledWordsReassemble : Prop :=
  (∀ w : Word, assemble (disassemble w) = some w) ∧
  ∀ (w : Word) (op : Operation),
    disassemble w = .bare op ↔ w = 0x2000 ∧ op = .shl ∨ w = 0x3000 ∧ op = .shr

/-! ## The sequencer -/

/-- R80 and R82: the function L with its examples, computed here on numbers; the candidate is L of CTRL's low byte,
zero-extended, so its high byte is 0, whatever N is, and CTRL's high byte is discarded. -/
def Obligations.SequencerAndCandidate : Prop :=
  (∀ x : Byte, (seqNext x).toNat = if x.toNat % 2 = 0 then x.toNat / 2 else (x.toNat / 2) ^^^ 0xB8) ∧
  (seqNext 0x01 = 0xB8 ∧ seqNext 0x02 = 0x01 ∧ seqNext 0x03 = 0xB9 ∧ seqNext 0xB8 = 0x5C ∧
    seqNext 0x80 = 0x40 ∧ seqNext 0xFF = 0xC7 ∧ seqNext 0x00 = 0x00) ∧
  (∀ s : State, (candidate s).toNat = (seqNext (BitVec.ofNat 8 s.ctrl.toNat)).toNat ∧ (candidate s).toNat < 256) ∧
  ∀ s t : State, s.ctrl.toNat % 256 = t.ctrl.toNat % 256 → candidate s = candidate t

/-- R81: 0 is a fixed point; from a nonzero state 255 iterations return to it, through 255 distinct nonzero values; and
(an inference the spec draws from R80) L is a bijection with the inverse Linv. -/
def Obligations.SequencerPeriod255 : Prop :=
  seqNext 0 = 0 ∧
  (∀ x : Byte, x ≠ 0 →
    seqNext^[255] x = x ∧
    (∀ n, seqNext^[n] x ≠ 0) ∧
    ∀ i j, i < 255 → j < 255 → seqNext^[i] x = seqNext^[j] x → i = j) ∧
  ∀ x : Byte, seqPrev (seqNext x) = x ∧ seqNext (seqPrev x) = x

/-! ## Memory and operands -/

/-- R41: reads and writes index modulo N; a read after a write gives the word written at the written cell, and at every
other address what it gave before; N does not change. Canonical memories (the invariant `StepKeepsInvariant`). -/
def Obligations.MemoryReadsAndWritesModuloN : Prop :=
  ∀ (m : Memory) (a b : Nat) (v : Word), m.wf →
    memRead m a = memRead m (a % m.size) ∧
    memRead (memWrite m a v) b = (if b % m.size = a % m.size then v else memRead m b) ∧
    (memWrite m a v).size = m.size

/-- R42: addresses N apart name the same cell; with N = 8192, bits 15 to 13 of an address select nothing. -/
def Obligations.AddressesAlias : Prop :=
  (∀ (m : Memory) (a : Nat) (v : Word),
    memRead m (a + m.size) = memRead m a ∧ memWrite m (a + m.size) v = memWrite m a v) ∧
  ∀ (m : Memory) (a v : Word), m.size = 8192 →
    memRead m a.toNat = memRead m (a &&& 0x1FFF).toNat ∧
    memWrite m a.toNat v = memWrite m (a &&& 0x1FFF).toNat v

/-- The model's own claim for its canonical form (notes/assumptions/1.md): memories of one size that read alike are the
same data. -/
def Obligations.CanonicalMemoriesEqual : Prop :=
  ∀ m m' : Memory, m.wf → m'.wf → m.last = m'.last → (∀ a, memRead m a = memRead m' a) → m = m'

/-- R63: the effective operand is the field, zero-extended (an inference of the spec from "verbatim"), or the cell the
field names. -/
def Obligations.EffectiveOperandForms : Prop :=
  ∀ (k : Field) (s : State),
    (effOperand (.imm k) s).toNat = k.toNat ∧
    effOperand (.ind k) s = memRead s.mem (k.toNat % s.mem.size)

/-- R71, R47: an immediate operand is at most 0x0FFF, so only an indirect operand, whose value comes from memory, can
name the I/O half or an address from 4096 up. -/
def Obligations.OnlyIndirectOperandsReachTheIoHalf : Prop :=
  ∀ (o : Operand) (s : State), isIo (effOperand o s) = true ∨ 4096 ≤ (effOperand o s).toNat →
    ∃ k : Field, o = .ind k ∧ effOperand o s = memRead s.mem k.toNat

/-! ## The instructions

`{ s with … }` names every field a completed step writes: all others are unchanged. `wait := .none` says that the step
is held on nothing once it is over (R30; notes/assumptions/9.md). -/

/-- R101: AND, in both operand forms, its word under any opcode assignment, no exception. -/
def Obligations.AndResult : Prop :=
  (∀ (k : Field) (s : State),
    exec (.and (.imm k)) s =
      .next { s with acc := s.acc &&& k.setWidth 16, ctrl := candidate s, wait := .none }) ∧
  (∀ (k : Field) (s : State),
    exec (.and (.ind k)) s =
      .next { s with acc := s.acc &&& memRead s.mem k.toNat, ctrl := candidate s, wait := .none }) ∧
  ∀ (map : OpcodeMap) (w : Word), map (w.extractLsb' 12 3) = .and →
    decodeWith map w = .and (if w.getLsbD 15 then .ind (w.extractLsb' 0 12) else .imm (w.extractLsb' 0 12))

/-- R102: XOR, in both operand forms, its word under any opcode assignment, no exception. -/
def Obligations.XorResult : Prop :=
  (∀ (k : Field) (s : State),
    exec (.xor (.imm k)) s =
      .next { s with acc := s.acc ^^^ k.setWidth 16, ctrl := candidate s, wait := .none }) ∧
  (∀ (k : Field) (s : State),
    exec (.xor (.ind k)) s =
      .next { s with acc := s.acc ^^^ memRead s.mem k.toNat, ctrl := candidate s, wait := .none }) ∧
  ∀ (map : OpcodeMap) (w : Word), map (w.extractLsb' 12 3) = .xor →
    decodeWith map w = .xor (if w.getLsbD 15 then .ind (w.extractLsb' 0 12) else .imm (w.extractLsb' 0 12))

/-- R103: SHL doubles ACC modulo 2^16, whatever its operand; its word under any opcode assignment, no exception. -/
def Obligations.ShlResult : Prop :=
  (∀ (o : Operand) (s : State),
    exec (.shl o) s =
      .next { s with acc := BitVec.ofNat 16 (2 * s.acc.toNat), ctrl := candidate s, wait := .none }) ∧
  ∀ (map : OpcodeMap) (w : Word), map (w.extractLsb' 12 3) = .shl →
    decodeWith map w = .shl (if w.getLsbD 15 then .ind (w.extractLsb' 0 12) else .imm (w.extractLsb' 0 12))

/-- R104: SHR halves ACC, whatever its operand. That 0 enters bit 15 is the spec's decision D4. -/
def Obligations.ShrResult : Prop :=
  (∀ (o : Operand) (s : State),
    exec (.shr o) s =
      .next { s with acc := BitVec.ofNat 16 (s.acc.toNat / 2), ctrl := candidate s, wait := .none }) ∧
  ∀ (map : OpcodeMap) (w : Word), map (w.extractLsb' 12 3) = .shr →
    decodeWith map w = .shr (if w.getLsbD 15 then .ind (w.extractLsb' 0 12) else .imm (w.extractLsb' 0 12))

/-- R120, R43: LOAD with bit 15 of its address clear reads a cell and touches no channel. -/
def Obligations.LoadFromMemory : Prop :=
  ∀ (o : Operand) (s : State), isIo (effOperand o s) = false →
    exec (.load o) s =
      .next { s with acc := memRead s.mem (effOperand o s).toNat, ctrl := candidate s, wait := .none }

/-- R120, R172: LOAD with bit 15 of its address set takes one unit from the input channel, whatever the other bits.
Zero extension is the spec's decision D8; the log of answered transactions is the model's (notes/assumptions/8.md). -/
def Obligations.LoadFromInput : Prop :=
  ∀ (o : Operand) (s : State) (u : Byte) (rest : Answers InAnswer),
    isIo (effOperand o s) = true → nextInput s = (some (.unit u), rest) →
    exec (.load o) s =
      .next { s with
        acc := u.setWidth 16
        ctrl := candidate s
        wait := .none
        env := { s.env with inAnswers := rest, log := s.env.log ++ [.input (.unit u)] } }

/-- R162, R165: end-of-input and a read failure both raise FAULT_IN (decision D10) and commit nothing (decision D9). That
WAIT is NONE after the fault is the model's reading (notes/assumptions/9.md, DEDUCED); the consumed answer and the log
are the model's fields (7.md, 8.md). -/
def Obligations.LoadInputFailureFaults : Prop :=
  ∀ (o : Operand) (s : State) (a : InAnswer) (rest : Answers InAnswer),
    isIo (effOperand o s) = true → nextInput s = (some a, rest) → (a = .endOfInput ∨ a = .failure) →
    exec (.load o) s =
      .next { s with
        status := .faultIn
        wait := .none
        env := { s.env with inAnswers := rest, log := s.env.log ++ [.input a] } }

/-- R172, R175: while the input channel has not answered, LOAD holds with WAIT_IN and asks at the port; nothing else
changes but the host's answers left (notes/assumptions/7.md). The port is decision D15's rendering (R178). -/
def Obligations.LoadHoldsUntilAnswered : Prop :=
  ∀ (o : Operand) (s : State) (rest : Answers InAnswer),
    isIo (effOperand o s) = true → nextInput s = (none, rest) →
    ∃ t, exec (.load o) s = .next t ∧
      t = { s with wait := .waitIn, env := { s.env with inAnswers := rest } } ∧
      inReq t = true

/-- R121, R44: STORE with bit 15 of its address clear writes ACC to the cell the effective operand names, modulo N; every
other cell reads as before, ACC is unchanged and no channel is touched. The read-back is stated of canonical memories. -/
def Obligations.StoreToMemory : Prop :=
  ∀ (o : Operand) (s : State), isIo (effOperand o s) = false →
    ∃ m : Memory,
      exec (.store o) s = .next { s with mem := m, ctrl := candidate s, wait := .none } ∧
      m.size = s.mem.size ∧
      (s.mem.wf → memRead m (effOperand o s).toNat = s.acc) ∧
      ∀ b : Nat, b % s.mem.size ≠ (effOperand o s).toNat % s.mem.size → memRead m b = memRead s.mem b

/-- R121, R173: STORE with bit 15 of its address set offers ACC[7:0]; on Ok it completes, with no cell and no bit of ACC
changed. The log is the model's (notes/assumptions/8.md). -/
def Obligations.StoreToOutput : Prop :=
  ∀ (o : Operand) (s : State) (rest : Answers Ack),
    isIo (effOperand o s) = true → nextOutput s = (some .ok, rest) →
    exec (.store o) s =
      .next { s with
        ctrl := candidate s
        wait := .none
        env := { s.env with outAnswers := rest, log := s.env.log ++ [.output (s.acc.setWidth 8) .ok] } }

/-- R163, R165: an output failure raises FAULT_OUT and commits nothing (decision D9). That WAIT is NONE after the fault is
the model's reading (notes/assumptions/9.md, DEDUCED); the consumed answer and the log are the model's fields (7.md,
8.md). -/
def Obligations.StoreOutputFailureFaults : Prop :=
  ∀ (o : Operand) (s : State) (rest : Answers Ack),
    isIo (effOperand o s) = true → nextOutput s = (some .failure, rest) →
    exec (.store o) s =
      .next { s with
        status := .faultOut
        wait := .none
        env := { s.env with outAnswers := rest, log := s.env.log ++ [.output (s.acc.setWidth 8) .failure] } }

/-- R173, R175: while the output channel has not answered, STORE holds with WAIT_OUT and offers ACC[7:0] at the port;
nothing else changes but the host's answers left (notes/assumptions/7.md). The port is decision D15's rendering (R178). -/
def Obligations.StoreHoldsUntilAnswered : Prop :=
  ∀ (o : Operand) (s : State) (rest : Answers Ack),
    isIo (effOperand o s) = true → nextOutput s = (none, rest) →
    ∃ t, exec (.store o) s = .next t ∧
      t = { s with wait := .waitOut, env := { s.env with outAnswers := rest } } ∧
      outOffer t = some (s.acc.setWidth 8)

/-- R140: JMP to the current control value halts, with nothing else changed; any other JMP takes the effective operand
itself, all 16 bits of it; ACC is neither read nor written; its word under any opcode assignment. -/
def Obligations.JmpTransfersOrHalts : Prop :=
  (∀ (o : Operand) (s : State), effOperand o s = s.ctrl →
    exec (.jmp o) s = .next { s with status := .halt, wait := .none }) ∧
  (∀ (o : Operand) (s : State), effOperand o s ≠ s.ctrl →
    exec (.jmp o) s = .next { s with ctrl := effOperand o s, wait := .none }) ∧
  ∀ (map : OpcodeMap) (w : Word), map (w.extractLsb' 12 3) = .jmp →
    decodeWith map w = .jmp (if w.getLsbD 15 then .ind (w.extractLsb' 0 12) else .imm (w.extractLsb' 0 12))

/-- R141: JZ takes the effective operand if all 16 bits of ACC are 0 and the candidate if not; it never halts; its word
under any opcode assignment. -/
def Obligations.JzTransfersOnZero : Prop :=
  (∀ (o : Operand) (s : State), s.acc = 0 →
    exec (.jz o) s = .next { s with ctrl := effOperand o s, wait := .none }) ∧
  (∀ (o : Operand) (s : State), s.acc ≠ 0 →
    exec (.jz o) s = .next { s with ctrl := candidate s, wait := .none }) ∧
  ∀ (map : OpcodeMap) (w : Word), map (w.extractLsb' 12 3) = .jz →
    decodeWith map w = .jz (if w.getLsbD 15 then .ind (w.extractLsb' 0 12) else .imm (w.extractLsb' 0 12))

/-- JMP and LOAD do not read ACC (R21's list of readers, in part): started with another ACC, JMP leaves that ACC and
otherwise the same state, and LOAD leaves the same state where it completes and that ACC where it does not. -/
def Obligations.JmpAndLoadIgnoreAcc : Prop :=
  ∀ (o : Operand) (s t : State) (a : Word), s.status = .run →
    (exec (.jmp o) s = .next t → exec (.jmp o) { s with acc := a } = .next { t with acc := a }) ∧
    (exec (.load o) s = .next t →
      exec (.load o) { s with acc := a } =
        .next { t with acc := if t.status = .run ∧ t.wait = .none then t.acc else a })

/-! ## The step -/

/-- R83 to R85, R88, R89: in RUN, with tracing off or the step's trace write already made (a resumed hold), a step is
exec of the instruction in cell CTRL mod N, and nothing else; in any other status it changes nothing (R35, R166). That a
step held with WAIT_IN or WAIT_OUT under tracing goes straight to exec is the model's reading of R90 (d), R91 and R174
(notes/assumptions/12.md, DEDUCED), and that an ended state answers itself is 10.md (DEDUCED). The case of a step that
traces is `TracePartOfTheStep`. -/
def Obligations.StepRunsTheDecodedInstruction : Prop :=
  (∀ s : State, s.status = .run → s.traceEn = false ∨ s.wait = .waitIn ∨ s.wait = .waitOut →
    step s = exec (decode (memRead s.mem (s.ctrl.toNat % s.mem.size))) s) ∧
  ∀ s : State, s.status ≠ .run → step s = .next s

/-- R87: with TRACE_EN, one record goes to the trace port; the step holds, offering the record, until the host answers; a
failure raises FAULT_TRACE before the dispatch; on Ok the dispatch follows. Without TRACE_EN nothing is sent. The
record's fields are the spec's decision D14 and the port is D15's rendering. The answers and the log are the model's
fields (notes/assumptions/7.md, 8.md); that WAIT is NONE after the fault, and that a step held with WAIT_TRACE asks again
for the same record, are the model's readings (9.md, 12.md, DEDUCED). -/
def Obligations.TracePartOfTheStep : Prop :=
  ∀ (s : State) (w : Word) (r : TraceRecord), s.status = .run → s.wait = .none ∨ s.wait = .waitTrace →
    w = memRead s.mem s.ctrl.toNat →
    r = { addr := s.ctrl, word := w, acc := s.acc, op := w.extractLsb' 12 3 } →
    (s.traceEn = false → step s = exec (decode w) s) ∧
    (∀ rest, s.traceEn = true → nextTrace s = (none, rest) →
      ∃ t, step s = .next t ∧
        t = { s with wait := .waitTrace, env := { s.env with traceAnswers := rest } } ∧
        traceOffer t = some r) ∧
    (∀ rest, s.traceEn = true → nextTrace s = (some .ok, rest) →
      step s = exec (decode w) { s with
        wait := .none
        env := { s.env with traceAnswers := rest, log := s.env.log ++ [.trace r .ok] } }) ∧
    (∀ rest, s.traceEn = true → nextTrace s = (some .failure, rest) →
      step s = .next { s with
        status := .faultTrace
        wait := .none
        env := { s.env with traceAnswers := rest, log := s.env.log ++ [.trace r .failure] } })

/-- R65, R100, R160: no word, state or answer stops the model; every instruction and every step answers a next state,
under every opcode assignment. That the halt (R142) and the fatal failures (R165) are next states with STATUS set, and
that an ended state answers itself (R35), are the model's readings (notes/assumptions/11.md, 10.md, DEDUCED). -/
def Obligations.EveryStepHasANextState : Prop :=
  (∀ (i : Instr) (s : State), ∃ t, exec i s = .next t) ∧
  ∀ (map : OpcodeMap) (s : State), ∃ t, cycle map s = .next t

/-- R45, R121: only a STORE whose address has bit 15 clear changes memory, and it changes no cell but the one its
effective operand names. -/
def Obligations.OnlyStoreWritesMemory : Prop :=
  ∀ (map : OpcodeMap) (s t : State), cycle map s = .next t →
    (t.mem = s.mem ∨
      (fetched map s).operation = .store ∧ isIo (effOperand (fetched map s).operand s) = false ∧
      t.mem = memWrite s.mem (effOperand (fetched map s).operand s).toNat s.acc) ∧
    ∀ b : Nat, (fetched map s).operation = .store →
      b % s.mem.size ≠ (effOperand (fetched map s).operand s).toNat % s.mem.size →
      memRead t.mem b = memRead s.mem b

/-- R21, in part: ACC is written by AND, XOR, SHL, SHR and LOAD only. -/
def Obligations.AccumulatorWriters : Prop :=
  ∀ (map : OpcodeMap) (s t : State), cycle map s = .next t → t.acc ≠ s.acc →
    (fetched map s).operation = .and ∨ (fetched map s).operation = .xor ∨ (fetched map s).operation = .shl ∨
    (fetched map s).operation = .shr ∨ (fetched map s).operation = .load

/-- R95, an inference the spec draws: after a completed step CTRL is the candidate, or the effective operand of a JMP
that does not halt or of a taken JZ; nothing else advances it. -/
def Obligations.ControlAfterACompletedStep : Prop :=
  ∀ (map : OpcodeMap) (s t : State), Completes map s t →
    t.ctrl =
      if (fetched map s).operation = .jmp ∨ (fetched map s).operation = .jz ∧ s.acc = 0
      then effOperand (fetched map s).operand s else candidate s

/-- R91, R165 (decision D9), R175: a step that halts, faults or is held leaves ACC, CTRL and memory as they were. -/
def Obligations.IncompleteStepCommitsNothing : Prop :=
  ∀ (map : OpcodeMap) (s t : State), cycle map s = .next t → t.status ≠ .run ∨ t.wait ≠ .none →
    t.acc = s.acc ∧ t.ctrl = s.ctrl ∧ t.mem = s.mem

/-- R29, in part, and R7: TRACE_EN and N are constant. -/
def Obligations.ConfigurationIsConstant : Prop :=
  ∀ (map : OpcodeMap) (s t : State), cycle map s = .next t → t.traceEn = s.traceEn ∧ t.mem.size = s.mem.size

/-- R45 (bit 15 as the selector: decision D19) and R46 (decision D3): without tracing, a step that is no LOAD or STORE
with bit 15 of its address set touches no channel, whatever CTRL is; and a LOAD or STORE with it set changes no cell. -/
def Obligations.ChannelsOnlyOnTheIoHalf : Prop :=
  ∀ (map : OpcodeMap) (s t : State), s.status = .run → s.traceEn = false → cycle map s = .next t →
    (((fetched map s).operation ≠ .load ∧ (fetched map s).operation ≠ .store ∨
        isIo (effOperand (fetched map s).operand s) = false) → t.env = s.env ∧ t.wait = .none) ∧
    (((fetched map s).operation = .load ∨ (fetched map s).operation = .store) →
        isIo (effOperand (fetched map s).operand s) = true → t.mem = s.mem)

/-- R89, R53, R54, R174: a call of the step answers at most one trace transaction and then at most one channel
transaction, and undoes none that was answered before (R91). -/
def Obligations.TransactionsOfAStep : Prop :=
  ∀ (map : OpcodeMap) (s t : State), cycle map s = .next t →
    ∃ tr io, t.env.log = s.env.log ++ tr ++ io ∧ tr.length ≤ 1 ∧ io.length ≤ 1 ∧
      (∀ e ∈ tr, e.isTrace = true) ∧ (∀ e ∈ io, e.isTrace = false) ∧
      (s.wait = .waitIn ∨ s.wait = .waitOut → tr = [])

/-- R172, R173, R200: the sequences of units the output channel took and the input channel gave. A reset empties both; a STORE
with bit 15 of its address set that completes adds its ACC[7:0] to the first, a LOAD with it set that completes adds the
unit its ACC becomes (zero extension: decision D8) to the second, and no other call of the step adds anything: a unit
answered with a failure is not one the channel took (what became of it is left open, notes/assumptions/20.md). The log
the sequences are read from is the model's (8.md). -/
def Obligations.UnitsOfAStep : Prop :=
  (∀ (inp : ResetInputs) (s : State),
    unitsTaken (resetRun inp s).env.log = [] ∧ unitsGiven (resetRun inp s).env.log = []) ∧
  ∀ (map : OpcodeMap) (s t : State), cycle map s = .next t →
    (Completes map s t ∧ (fetched map s).operation = .store ∧ isIo (effOperand (fetched map s).operand s) = true →
      unitsTaken t.env.log = unitsTaken s.env.log ++ [s.acc.setWidth 8]) ∧
    (¬(Completes map s t ∧ (fetched map s).operation = .store ∧ isIo (effOperand (fetched map s).operand s) = true) →
      unitsTaken t.env.log = unitsTaken s.env.log) ∧
    (Completes map s t ∧ (fetched map s).operation = .load ∧ isIo (effOperand (fetched map s).operand s) = true →
      ∃ u : Byte, t.acc = u.setWidth 16 ∧ unitsGiven t.env.log = unitsGiven s.env.log ++ [u]) ∧
    (¬(Completes map s t ∧ (fetched map s).operation = .load ∧ isIo (effOperand (fetched map s).operand s) = true) →
      unitsGiven t.env.log = unitsGiven s.env.log)

/-- R35, R90, R200: STATUS leaves RUN only by a self-jump or by a failing answer to the step's own transaction. -/
def Obligations.HowARunEnds : Prop :=
  ∀ (map : OpcodeMap) (s t : State), s.status = .run → cycle map s = .next t → t.status ≠ .run →
    (t.status = .faultTrace ∧ s.traceEn = true ∧ (nextTrace s).1 = some .failure) ∨
    (t.status = .halt ∧ (fetched map s).operation = .jmp ∧ effOperand (fetched map s).operand s = s.ctrl) ∨
    (t.status = .faultIn ∧ (fetched map s).operation = .load ∧
      isIo (effOperand (fetched map s).operand s) = true ∧
      ((nextInput s).1 = some .endOfInput ∨ (nextInput s).1 = some .failure)) ∨
    (t.status = .faultOut ∧ (fetched map s).operation = .store ∧
      isIo (effOperand (fetched map s).operand s) = true ∧
      (nextOutput s).1 = some .failure)

/-- R56, an inference the spec draws: a word stored in the cell of the very next instruction is the instruction that
runs next. -/
def Obligations.StoredWordRunsNext : Prop :=
  ∀ s : State, s.mem.wf → s.status = .run → s.traceEn = false →
    (fetched defaultOpcodeMap s).operation = .store →
    isIo (effOperand (fetched defaultOpcodeMap s).operand s) = false →
    (effOperand (fetched defaultOpcodeMap s).operand s).toNat % s.mem.size = (candidate s).toNat % s.mem.size →
    ∃ t, step s = .next t ∧ t.ctrl = candidate s ∧ step t = exec (decode s.acc) t

/-! ## Runs -/

/-- R166, R35 (decision D22): HALT and the faults are terminal, for any number of further steps; a step of an ended core
answers the same state (notes/assumptions/10.md, DEDUCED). -/
def Obligations.EndedRunsStay : Prop :=
  ∀ (k : Nat) (s : State), s.status ≠ .run → Host.Core.run Sys2Proof.core k s = .next s

/-- R198 (d), R175, I3: a transaction the host does not answer holds the core in RUN with nothing changed, for as many
calls as the host stays silent (for ever, where it never answers): at the input channel, at the output channel and at
the trace port. The answers are the model's fields (notes/assumptions/7.md), and a held step asks again (12.md). -/
def Obligations.UnansweredTransactionsHoldForEver : Prop :=
  ∀ (k : Nat) (s : State), s.status = .run →
    ((s.traceEn = false ∨ s.wait = .waitIn) → (fetched defaultOpcodeMap s).operation = .load →
      isIo (effOperand (fetched defaultOpcodeMap s).operand s) = true → (∀ n, n ≤ k → inputAt s n = none) →
      ∃ t, Host.Core.run Sys2Proof.core (k + 1) s = .next t ∧
        t = { s with
          wait := .waitIn
          env := { s.env with inAnswers := answersLeft Config.drawnInput (k + 1) s.env.inAnswers } }) ∧
    ((s.traceEn = false ∨ s.wait = .waitOut) → (fetched defaultOpcodeMap s).operation = .store →
      isIo (effOperand (fetched defaultOpcodeMap s).operand s) = true → (∀ n, n ≤ k → outputAt s n = none) →
      ∃ t, Host.Core.run Sys2Proof.core (k + 1) s = .next t ∧
        t = { s with
          wait := .waitOut
          env := { s.env with outAnswers := answersLeft Config.drawnOutput (k + 1) s.env.outAnswers } }) ∧
    (s.traceEn = true → s.wait = .none ∨ s.wait = .waitTrace → (∀ n, n ≤ k → traceAt s n = none) →
      ∃ t, Host.Core.run Sys2Proof.core (k + 1) s = .next t ∧
        t = { s with
          wait := .waitTrace
          env := { s.env with traceAnswers := answersLeft Config.drawnTrace (k + 1) s.env.traceAnswers } })

/-- R198 (c), R90, R89: a step that is not at a self-jump, and whose transactions the host answers well (Ok, or a unit),
completes: it ends nothing and holds on nothing. -/
def Obligations.AnsweredStepsComplete : Prop :=
  ∀ (map : OpcodeMap) (s : State), s.status = .run → ¬SelfJump map s →
    (s.traceEn = true → s.wait.traceDue = true → (nextTrace s).1 = some .ok) →
    (UsesChannel map s → (fetched map s).operation = .load → ∃ u, (nextInput s).1 = some (.unit u)) →
    (UsesChannel map s → (fetched map s).operation = .store → (nextOutput s).1 = some .ok) →
    ∃ t, Completes map s t

/-- R198 (c), R200: a run that meets no self-jump and whose host answers every call well does not end and never holds,
for any number of steps, with or without tracing: an endless run stays endless. The hosts that answer for ever are
values of State (notes/assumptions/24.md). -/
def Obligations.AnsweredRunsGoOn : Prop :=
  ∀ (k : Nat) (s : State), s.status = .run → s.wait = .none →
    (s.traceEn = true → ∀ n, n < k → traceAt s n = some .ok) →
    (∀ n, n < k → ∃ u, inputAt s n = some (.unit u)) →
    (∀ n, n < k → outputAt s n = some .ok) →
    (∀ j u, j < k → Host.Core.run Sys2Proof.core j s = .next u → ¬SelfJump defaultOpcodeMap u) →
    ∃ t, Host.Core.run Sys2Proof.core k s = .next t ∧ t.status = .run ∧ t.wait = .none

/-- R198 (a) with transactions in the loop: with CTRL = 0 and in cell 0 an AND, XOR, SHL, SHR or LOAD, or a STORE with bit
15 of its address set, and every call answered well, the core executes cell 0 for ever, in RUN and held on nothing, and
each step answers one trace transaction if TRACE_EN is 1 and one channel transaction if the instruction makes one. The
count is read from the model's log (notes/assumptions/8.md). -/
def Obligations.AnsweredLoopsNeverEnd : Prop :=
  ∀ (k : Nat) (s : State), s.status = .run → s.wait = .none → s.ctrl = 0 →
    ((fetched defaultOpcodeMap s).operation = .and ∨ (fetched defaultOpcodeMap s).operation = .xor ∨
      (fetched defaultOpcodeMap s).operation = .shl ∨ (fetched defaultOpcodeMap s).operation = .shr ∨
      (fetched defaultOpcodeMap s).operation = .load ∨
      (fetched defaultOpcodeMap s).operation = .store ∧ UsesChannel defaultOpcodeMap s) →
    (s.traceEn = true → ∀ n, n < k → traceAt s n = some .ok) →
    (∀ n, n < k → ∃ u, inputAt s n = some (.unit u)) →
    (∀ n, n < k → outputAt s n = some .ok) →
    ∃ t, Host.Core.run Sys2Proof.core k s = .next t ∧
      t.ctrl = 0 ∧ t.status = .run ∧ t.wait = .none ∧ t.mem = s.mem ∧
      t.env.log.length = s.env.log.length + k *
        ((if s.traceEn then 1 else 0) + if UsesChannel defaultOpcodeMap s then 1 else 0)

/-- I2, I3 and R177 as the model holds them (notes/assumptions/7.md, 24.md): the answer to call number n is the n-th
listed one, and after these none at all, or a round of answers for ever, or free draws for ever. -/
def Obligations.AnswersOfTheHost : Prop :=
  ∀ (α : Type) (draw : Nat → Option α) (l : List (Option α)) (f : After α) (n : Nat),
    answerAt draw { listed := l, after := f } n =
      if h : n < l.length then l[n]
      else match f with
        | .never => none
        | .repeats x rest => (x :: rest)[(n - l.length) % (rest.length + 1)]?.join
        | .drawn m => draw (m + (n - l.length))

/-- R198 (b): a JZ to itself with ACC = 0 repeats for ever and never halts. -/
def Obligations.JzToItselfNeverEnds : Prop :=
  ∀ (k : Nat) (s : State), s.status = .run → s.traceEn = false → s.wait = .none →
    (fetched defaultOpcodeMap s).operation = .jz → effOperand (fetched defaultOpcodeMap s).operand s = s.ctrl →
    s.acc = 0 → Host.Core.run Sys2Proof.core k s = .next s

/-- R198 (a), R92: with CTRL = 0 and an AND, XOR, SHL or SHR in cell 0, the core executes cell 0 for ever. -/
def Obligations.CellZeroLoopsForEver : Prop :=
  ∀ (k : Nat) (s : State), s.status = .run → s.traceEn = false → s.ctrl = 0 →
    ((fetched defaultOpcodeMap s).operation = .and ∨ (fetched defaultOpcodeMap s).operation = .xor ∨
      (fetched defaultOpcodeMap s).operation = .shl ∨ (fetched defaultOpcodeMap s).operation = .shr) →
    ∃ t, Host.Core.run Sys2Proof.core k s = .next t ∧ t.ctrl = 0 ∧ t.status = .run ∧ t.mem = s.mem ∧ t.env = s.env

/-- R92: along completed steps that do not transfer control, CTRL follows the sequencer from the low byte it started
with. -/
def Obligations.ImplicitRunsFollowTheSequencer : Prop :=
  ∀ (map : OpcodeMap) (n : Nat) (s t : State), ImplicitRun map (n + 1) s t →
    t.ctrl = (seqNext^[n + 1] (s.ctrl.setWidth 8)).setWidth 16

/-- R92, R196 (d): an implicit run never leaves the addresses below 256; from a nonzero low byte it never reaches 0 and
is back at that byte after 255 steps, not before; from a zero low byte it stays at 0. -/
def Obligations.ImplicitRunsCloseAfter255 : Prop :=
  ∀ (map : OpcodeMap) (n : Nat) (s t : State), ImplicitRun map (n + 1) s t →
    t.ctrl.toNat < 256 ∧
    (s.ctrl.toNat % 256 = 0 → t.ctrl = 0) ∧
    (s.ctrl.toNat % 256 ≠ 0 → t.ctrl ≠ 0 ∧ (n < 255 → (t.ctrl.toNat = s.ctrl.toNat % 256 ↔ n + 1 = 255)))

/-! ## Tracing

The trace port's answers and the log are the model's fields (notes/assumptions/7.md, 8.md), and a step that has sent its
record goes on without sending it again (12.md, DEDUCED). -/

/-- R174, R29 (V-TR-6): one step with tracing, its record answered Ok or already sent, does what the same step does
without tracing, to ACC, CTRL, memory, STATUS, WAIT and the channels; while the trace port has not answered, nothing
happens. -/
def Obligations.TracedStepMatchesUntraced : Prop :=
  ∀ (map : OpcodeMap) (s t : State), s.status = .run → s.traceEn = true → cycle map s = .next t →
    (s.wait.traceDue = false ∨ (nextTrace s).1 = some .ok →
      cycle map (untraced s) = .next (untraced t)) ∧
    (s.wait.traceDue = true → (nextTrace s).1 = none →
      untraced t = untraced s)

/-- R174, R29 (V-TR-6), for runs: as long as the trace port answers Ok to every record, which it may do for ever, the
traced run and the run without tracing agree after every number of steps. -/
def Obligations.TracedRunMatchesUntraced : Prop :=
  ∀ (k : Nat) (s t : State), (∀ n, n < k → traceAt s n = some .ok) →
    Host.Core.run Sys2Proof.core k s = .next t → Host.Core.run Sys2Proof.core k (untraced s) = .next (untraced t)

/-! ## Reset -/

/-- R33 with this hardware's values (decisions D5, D6, D7, D10, D23) and every cell 0 (R191). TRACE_EN = 0 and the
host's silent ports are the model's choices (notes/assumptions/5.md, 7.md, 8.md). -/
def Obligations.ResetState : Prop :=
  State.reset.acc = 0 ∧ State.reset.ctrl = 0 ∧ State.reset.mem.size = 8192 ∧
  (∀ a, memRead State.reset.mem a = 0) ∧ State.reset.status = .run ∧ State.reset.wait = .none ∧
  State.reset.traceEn = false ∧
  State.reset.env = { inAnswers := .ofList [], outAnswers := .ofList [], traceAnswers := .ofList [], log := [] } ∧
  (∀ n, inputAt State.reset n = none) ∧ (∀ n, outputAt State.reset n = none) ∧
  ∀ n, traceAt State.reset n = none

/-- R190, R193 (decisions D21, D23): reset, whatever the core was doing, takes the inputs' ACC, CTRL and TRACE_EN, gives
RUN and NONE, does not clear memory, and each cell holds its last preload write or else what it held. -/
def Obligations.ResetTakesItsInputs : Prop :=
  ∀ (inp : ResetInputs) (s : State), s.mem.wf →
    (resetRun inp s).acc = inp.initAcc ∧ (resetRun inp s).ctrl = inp.initControl ∧
    (resetRun inp s).status = .run ∧ (resetRun inp s).wait = .none ∧ (resetRun inp s).traceEn = inp.traceEn ∧
    (resetRun inp s).mem.size = s.mem.size ∧
    ∀ a, memRead (resetRun inp s).mem a =
      ((inp.preload.reverse.find? fun p => p.1.toNat % s.mem.size == a % s.mem.size).map Prod.snd).getD
        (memRead s.mem a)

/-- R191: a listing's words fill the cells from 0 until it ends, a token is malformed or memory is full; every other
cell is 0. -/
def Obligations.LoaderImage : Prop :=
  ∀ (last : Word) (tokens : List (Option Word)) (i : Nat), i ≤ last.toNat →
    memRead (loadImage last tokens) i = ((tokens.takeWhile Option.isSome)[i]?.join).getD 0

/-- R28, R34, R178, R200 (decisions D10, D15, D24): the status codes, and that the read-back port and the run's result exist
exactly when STATUS is not RUN: the cell the address names; and STATUS, CTRL, ACC, memory and the two sequences of
units, read from the model's log (notes/assumptions/8.md). What the sequences hold is `UnitsOfAStep`. -/
def Obligations.OutputsOfTheCore : Prop :=
  statusCode .run = 0 ∧ statusCode .halt = 1 ∧ statusCode .faultIn = 2 ∧ statusCode .faultOut = 3 ∧
  statusCode .faultTrace = 4 ∧
  ∀ (s : State) (a : Word),
    (s.status = .run → readBack s a = none ∧ runResult s = none) ∧
    (s.status ≠ .run →
      readBack s a = some (memRead s.mem (a.toNat % s.mem.size)) ∧
      runResult s = some {
        status := s.status, ctrl := s.ctrl, acc := s.acc, mem := s.mem
        taken := unitsTaken s.env.log, given := unitsGiven s.env.log })

/-! ## The invariant -/

/-- Every step keeps the invariant: memory canonical, and WAIT names a transaction that the instruction at CTRL makes
(R30, R35, R172 to R174), under every opcode assignment. The canonical form is the model's (notes/assumptions/1.md), and
so is the reading that WAIT is NONE outside RUN (9.md, DEDUCED). -/
def Obligations.StepKeepsInvariant : Prop :=
  ∀ (map : OpcodeMap) (s t : State), s.Inv map → cycle map s = .next t → t.Inv map

/-- The invariant holds after reset, and after any reset of a machine with canonical memory. -/
def Obligations.ResetMeetsInvariant : Prop :=
  (∀ map, State.reset.Inv map) ∧ ∀ (map : OpcodeMap) (inp : ResetInputs) (s : State), s.mem.wf → (resetRun inp s).Inv map
end

