-- ==== Sys2Proof/Laws/Hosts.lean ====
section
/-! SUPPORT. The answers of a host (60_exceptions.md R177; 93_implementation_defined.md I2, I3): what each form of
`Answers` gives, call by call. -/

namespace Sys2Proof.Machine

variable {α : Type} (draw : Nat → Option α)

@[simp] theorem nextAnswer_listed (x : Option α) (l : List (Option α)) (f : After α) :
    nextAnswer draw { listed := x :: l, after := f } = (x, { listed := l, after := f }) := rfl

@[simp] theorem nextAnswer_never :
    nextAnswer draw { listed := [], after := .never } = (none, { listed := [], after := .never }) := rfl

@[simp] theorem nextAnswer_repeats (x : Option α) (l : List (Option α)) :
    nextAnswer draw { listed := [], after := .repeats x l } = (x, { listed := l, after := .repeats x l }) := rfl

@[simp] theorem nextAnswer_drawn (n : Nat) :
    nextAnswer draw { listed := [], after := .drawn n } = (draw n, { listed := [], after := .drawn (n + 1) }) := rfl

@[simp] theorem answerAt_zero (a : Answers α) : answerAt draw a 0 = (nextAnswer draw a).1 := rfl

/-- Call number n + 1 is call number n of what is left after one call. -/
@[simp] theorem answerAt_succ (a : Answers α) (n : Nat) :
    answerAt draw a (n + 1) = answerAt draw (nextAnswer draw a).2 n := rfl

/-- What holds of the answers to the first n + 1 calls holds of the first n calls after one of them, answered or not. -/
theorem forall_answerAt_of_next {P : Option α → Prop} {a b : Answers α} {n : Nat}
    (h : ∀ i, i < n + 1 → P (answerAt draw a i)) (hb : b = a ∨ b = (nextAnswer draw a).2) :
    ∀ i, i < n → P (answerAt draw b i) := by
  rcases hb with rfl | rfl
  · exact fun i hi => h i (by omega)
  · exact fun i hi => h (i + 1) (by omega)

end Sys2Proof.Machine
end

