-- ==== Sys2Proof/Laws/State.lean ====
section
/-! SUPPORT. One lemma per field for each update of the state. -/

namespace Sys2Proof.Machine

@[simp] theorem commit_acc (a c : Word) (m : Memory) (s : State) : (commit a c m s).acc = a := rfl
@[simp] theorem commit_ctrl (a c : Word) (m : Memory) (s : State) : (commit a c m s).ctrl = c := rfl
@[simp] theorem commit_mem (a c : Word) (m : Memory) (s : State) : (commit a c m s).mem = m := rfl
@[simp] theorem commit_status (a c : Word) (m : Memory) (s : State) : (commit a c m s).status = s.status := rfl
@[simp] theorem commit_traceEn (a c : Word) (m : Memory) (s : State) : (commit a c m s).traceEn = s.traceEn := rfl
@[simp] theorem commit_wait (a c : Word) (m : Memory) (s : State) : (commit a c m s).wait = .none := rfl
@[simp] theorem commit_env (a c : Word) (m : Memory) (s : State) : (commit a c m s).env = s.env := rfl

@[simp] theorem raiseFault_acc (k : Status) (s : State) : (raiseFault k s).acc = s.acc := rfl
@[simp] theorem raiseFault_ctrl (k : Status) (s : State) : (raiseFault k s).ctrl = s.ctrl := rfl
@[simp] theorem raiseFault_mem (k : Status) (s : State) : (raiseFault k s).mem = s.mem := rfl
@[simp] theorem raiseFault_status (k : Status) (s : State) : (raiseFault k s).status = k := rfl
@[simp] theorem raiseFault_traceEn (k : Status) (s : State) : (raiseFault k s).traceEn = s.traceEn := rfl
@[simp] theorem raiseFault_wait (k : Status) (s : State) : (raiseFault k s).wait = .none := rfl
@[simp] theorem raiseFault_env (k : Status) (s : State) : (raiseFault k s).env = s.env := rfl

@[simp] theorem haltRun_acc (s : State) : (haltRun s).acc = s.acc := rfl
@[simp] theorem haltRun_ctrl (s : State) : (haltRun s).ctrl = s.ctrl := rfl
@[simp] theorem haltRun_mem (s : State) : (haltRun s).mem = s.mem := rfl
@[simp] theorem haltRun_status (s : State) : (haltRun s).status = .halt := rfl
@[simp] theorem haltRun_traceEn (s : State) : (haltRun s).traceEn = s.traceEn := rfl
@[simp] theorem haltRun_wait (s : State) : (haltRun s).wait = .none := rfl
@[simp] theorem haltRun_env (s : State) : (haltRun s).env = s.env := rfl

@[simp] theorem placeFetchWord_acc (s : State) (w : Word) : (placeFetchWord s w).acc = s.acc := rfl
@[simp] theorem placeFetchWord_ctrl (s : State) (w : Word) : (placeFetchWord s w).ctrl = s.ctrl := rfl
@[simp] theorem placeFetchWord_mem (s : State) (w : Word) : (placeFetchWord s w).mem = memWrite s.mem s.ctrl.toNat w := rfl
@[simp] theorem placeFetchWord_status (s : State) (w : Word) : (placeFetchWord s w).status = s.status := rfl
@[simp] theorem placeFetchWord_traceEn (s : State) (w : Word) : (placeFetchWord s w).traceEn = s.traceEn := rfl
@[simp] theorem placeFetchWord_wait (s : State) (w : Word) : (placeFetchWord s w).wait = s.wait := rfl
@[simp] theorem placeFetchWord_env (s : State) (w : Word) : (placeFetchWord s w).env = s.env := rfl

@[simp] theorem memWrite_last (m : Memory) (a : Nat) (v : Word) : (memWrite m a v).last = m.last := rfl
@[simp] theorem memWrite_size (m : Memory) (a : Nat) (v : Word) : (memWrite m a v).size = m.size := rfl

/-- N is at least 1 (R7). -/
theorem Memory.size_pos (m : Memory) : 0 < m.size := Nat.succ_pos _

/-- N is at most 65536 (R7). -/
theorem Memory.size_le (m : Memory) : m.size ≤ 65536 := Nat.succ_le_of_lt m.last.isLt

/-- Resetting from default inputs a machine whose memory is zero gives `State.reset`. -/
theorem resetRun_default (s : State) (h : s.mem = zeroMemory Config.lastCell) :
    resetRun { preload := [], initControl := Config.initControl, initAcc := Config.initAcc,
               traceEn := Config.traceEn, inAnswers := .ofList [], outAnswers := .ofList [], traceAnswers := .ofList [] } s
      = State.reset := by
  simp [resetRun, State.reset, preloadCells, h, zeroMemory]

end Sys2Proof.Machine
end

