-- ==== Sys2Proof/Laws/Memory.lean ====
section
/-! SUPPORT. The list of cells: reading what was written, leaving the rest alone, and the canonical form. -/

namespace Sys2Proof.Machine

/-- A list of cells is rising. -/
abbrev Rising (l : List (Nat × Word)) : Prop := (l.map Prod.fst).Pairwise (· < ·)

theorem Rising.tail {c : Nat × Word} {l : List (Nat × Word)} (h : Rising (c :: l)) : Rising l :=
  (List.pairwise_cons.mp h).2

theorem Rising.head_lt {c : Nat × Word} {l : List (Nat × Word)} (h : Rising (c :: l)) :
    ∀ d ∈ l, c.1 < d.1 := fun d hd =>
  (List.pairwise_cons.mp h).1 d.1 (List.mem_map_of_mem hd)

/-- An index below every listed one holds 0. -/
theorem cellAt_of_lt {l : List (Nat × Word)} {i : Nat} (h : ∀ d ∈ l, i < d.1) : cellAt l i = 0 := by
  induction l with
  | nil => rfl
  | cons c l ih =>
    have h1 := h c (by simp)
    simp only [cellAt]
    rw [if_neg (by omega), ih fun d hd => h d (by simp [hd])]

/-- A write leaves every other index alone, in any list. -/
theorem cellAt_setCell_ne (l : List (Nat × Word)) {i j : Nat} (v : Word) (h : j ≠ i) :
    cellAt (setCell l i v) j = cellAt l j := by
  induction l with
  | nil => simp only [setCell]; split <;> simp [cellAt, h.symm]
  | cons c l ih =>
    obtain ⟨k, x⟩ := c
    simp only [setCell]
    split
    · split <;> simp [cellAt, h.symm]
    · split
      · subst_vars
        split <;> simp [cellAt, h.symm]
      · simp [cellAt, ih]

/-- In a rising list the written index holds the written word. -/
theorem cellAt_setCell_self {l : List (Nat × Word)} (hl : Rising l) (i : Nat) (v : Word) :
    cellAt (setCell l i v) i = v := by
  induction l with
  | nil => simp only [setCell]; split <;> simp_all [cellAt]
  | cons c l ih =>
    obtain ⟨k, x⟩ := c
    have hk := hl.head_lt
    simp only [setCell]
    split
    · next hik =>
      split
      · next hv =>
        rw [hv]
        exact cellAt_of_lt fun d hd => by
          rcases List.mem_cons.mp hd with rfl | hd
          · exact hik
          · exact Nat.lt_trans hik (hk d hd)
      · simp [cellAt]
    · split
      · next hik =>
        subst hik
        split
        · next hv => rw [hv]; exact cellAt_of_lt hk
        · simp [cellAt]
      · next hne =>
        simp only [cellAt]
        rw [if_neg (fun h => hne h.symm), ih hl.tail]

/-- Every cell of a written list is an old cell or the new one, which is then not 0. -/
theorem mem_setCell {l : List (Nat × Word)} {i : Nat} {v : Word} {c : Nat × Word} (h : c ∈ setCell l i v) :
    c ∈ l ∨ (c = (i, v) ∧ v ≠ 0) := by
  induction l with
  | nil => simp only [setCell] at h; split at h <;> simp_all
  | cons d l ih =>
    obtain ⟨k, x⟩ := d
    simp only [setCell] at h
    split at h
    · split at h
      · exact .inl h
      · rcases List.mem_cons.mp h with rfl | h
        · exact .inr ⟨rfl, ‹_›⟩
        · exact .inl h
    · split at h
      · split at h
        · exact .inl (List.mem_cons_of_mem _ h)
        · rcases List.mem_cons.mp h with rfl | h
          · exact .inr ⟨rfl, ‹_›⟩
          · exact .inl (List.mem_cons_of_mem _ h)
      · rcases List.mem_cons.mp h with rfl | h
        · exact .inl (by simp)
        · exact (ih h).imp (List.mem_cons_of_mem _) id

/-- A write keeps a list rising. -/
theorem Rising.setCell {l : List (Nat × Word)} (hl : Rising l) (i : Nat) (v : Word) :
    Rising (Machine.setCell l i v) := by
  have cons : ∀ {c : Nat × Word} {l : List (Nat × Word)}, (∀ d ∈ l, c.1 < d.1) → Rising l → Rising (c :: l) := by
    intro c l h1 h2
    exact List.pairwise_cons.mpr ⟨fun a ha => by
      obtain ⟨d, hd, rfl⟩ := List.mem_map.mp ha
      exact h1 d hd, h2⟩
  induction l with
  | nil => simp only [Machine.setCell]; split <;> simp [Rising]
  | cons c l ih =>
    obtain ⟨k, x⟩ := c
    have hk := hl.head_lt
    simp only [Machine.setCell]
    split
    · next hik =>
      split
      · exact hl
      · exact cons (fun d hd => by
          rcases List.mem_cons.mp hd with rfl | hd
          · exact hik
          · exact Nat.lt_trans hik (hk d hd)) hl
    · split
      · next hik =>
        split
        · exact hl.tail
        · exact cons (fun d hd => by subst hik; exact hk d hd) hl.tail
      · next h1 h2 =>
        exact cons (fun d hd => by
          rcases mem_setCell hd with hd | ⟨rfl, -⟩
          · exact hk d hd
          · exact Nat.lt_of_le_of_ne (Nat.le_of_not_lt h1) (fun h => h2 h.symm)) (ih hl.tail)

/-- A memory write keeps the canonical form. -/
theorem Memory.wf.memWrite {m : Memory} (h : m.wf) (a : Nat) (v : Word) : (Machine.memWrite m a v).wf :=
  ⟨Rising.setCell h.1 _ _, fun _ hc => by
    rcases mem_setCell hc with hc | ⟨rfl, hv⟩
    · exact h.2 _ hc
    · exact ⟨Nat.mod_lt _ m.size_pos, hv⟩⟩

/-- The memory after reset has the canonical form. -/
theorem State.reset_mem_wf : State.reset.mem.wf := by decide

/-- The preload writes keep the canonical form. -/
theorem Memory.wf.preloadCells {m : Memory} (h : m.wf) (l : List (Word × Word)) :
    (Machine.preloadCells l m).wf := by
  induction l generalizing m with
  | nil => exact h
  | cons c l ih => exact ih (h.memWrite _ _)

/-- The loader keeps the canonical form. -/
theorem Memory.wf.loadFrom {m : Memory} (h : m.wf) (i : Nat) (l : List (Option Word)) :
    (Machine.loadFrom i l m).wf := by
  induction l generalizing m i with
  | nil => exact h
  | cons c l ih =>
    cases c with
    | none => exact h
    | some v =>
      simp only [Machine.loadFrom]
      split
      · exact ih (h.memWrite _ _) _
      · exact h

/-- Placing the fetched word keeps the canonical form. -/
theorem Memory.wf.placeFetchWord {s : State} (h : s.mem.wf) (w : Word) : (Machine.placeFetchWord s w).mem.wf :=
  h.memWrite _ _

end Sys2Proof.Machine
end

