-- ==== Sys2Proof/Laws/PerInstr.lean ====
section
/-! SUPPORT. Facts stated for each instruction as syntax. -/

/-- The three fields of an encoded instruction are its mode bit, its operation's code and its operand field
(30_encoding.md R61, R64), under every opcode assignment. -/
def Sys2Proof.Laws.EncodeFields.Statement (i : Sys2Proof.Instr) : Prop :=
  ∀ map : Sys2Proof.OpcodeMap,
    Sys2Proof.modeBit (Sys2Proof.encodeWith map i) = i.operand.mode ∧
    Sys2Proof.opField (Sys2Proof.encodeWith map i) = map.symm i.operation ∧
    Sys2Proof.operandField (Sys2Proof.encodeWith map i) = i.operand.field

namespace Sys2Proof.Laws

/-- A bit of a word put together from its fields. -/
theorem bit_of_append (m : Bool) (c : BitVec 3) (k : Field) (i : Nat) :
    (BitVec.ofBool m ++ (c ++ k) : Word).getLsbD i =
      if i < 15 then (if i < 12 then k.getLsbD i else c.getLsbD (i - 12)) else (BitVec.ofBool m).getLsbD (i - 15) := by
  have h1 := BitVec.getLsbD_append (x := BitVec.ofBool m) (y := (c ++ k : BitVec 15)) (i := i)
  have h2 := BitVec.getLsbD_append (x := c) (y := k) (i := i)
  refine h1.trans ?_
  by_cases h : i < 15
  · rw [if_pos h, if_pos h]; exact h2
  · rw [if_neg h, if_neg h]

/-- The fields of a word put together from them. -/
theorem fields_of_append (m : Bool) (c : BitVec 3) (k : Field) :
    modeBit (BitVec.ofBool m ++ (c ++ k)) = m ∧ opField (BitVec.ofBool m ++ (c ++ k)) = c ∧
    operandField (BitVec.ofBool m ++ (c ++ k)) = k := by
  refine ⟨?_, BitVec.eq_of_getLsbD_eq fun i hi => ?_, BitVec.eq_of_getLsbD_eq fun i hi => ?_⟩
  · rw [modeBit, bit_of_append]
    cases m <;> rfl
  · rw [opField, BitVec.getLsbD_extractLsb', bit_of_append, if_pos (by omega), if_neg (by omega)]
    simp only [hi, decide_true, Bool.true_and]
    congr 1
    omega
  · rw [operandField, BitVec.getLsbD_extractLsb', bit_of_append, if_pos (by omega), if_pos (by omega)]
    simp only [hi, decide_true, Bool.true_and, Nat.zero_add]

end Sys2Proof.Laws

theorem Sys2Proof.Laws.EncodeFields.and (o : Sys2Proof.Operand) : Sys2Proof.Laws.EncodeFields.Statement (.and o) :=
  fun _ => Sys2Proof.Laws.fields_of_append _ _ _

theorem Sys2Proof.Laws.EncodeFields.xor (o : Sys2Proof.Operand) : Sys2Proof.Laws.EncodeFields.Statement (.xor o) :=
  fun _ => Sys2Proof.Laws.fields_of_append _ _ _

theorem Sys2Proof.Laws.EncodeFields.shl (o : Sys2Proof.Operand) : Sys2Proof.Laws.EncodeFields.Statement (.shl o) :=
  fun _ => Sys2Proof.Laws.fields_of_append _ _ _

theorem Sys2Proof.Laws.EncodeFields.shr (o : Sys2Proof.Operand) : Sys2Proof.Laws.EncodeFields.Statement (.shr o) :=
  fun _ => Sys2Proof.Laws.fields_of_append _ _ _

theorem Sys2Proof.Laws.EncodeFields.load (o : Sys2Proof.Operand) : Sys2Proof.Laws.EncodeFields.Statement (.load o) :=
  fun _ => Sys2Proof.Laws.fields_of_append _ _ _

theorem Sys2Proof.Laws.EncodeFields.store (o : Sys2Proof.Operand) : Sys2Proof.Laws.EncodeFields.Statement (.store o) :=
  fun _ => Sys2Proof.Laws.fields_of_append _ _ _

theorem Sys2Proof.Laws.EncodeFields.jmp (o : Sys2Proof.Operand) : Sys2Proof.Laws.EncodeFields.Statement (.jmp o) :=
  fun _ => Sys2Proof.Laws.fields_of_append _ _ _

theorem Sys2Proof.Laws.EncodeFields.jz (o : Sys2Proof.Operand) : Sys2Proof.Laws.EncodeFields.Statement (.jz o) :=
  fun _ => Sys2Proof.Laws.fields_of_append _ _ _
end

