-- ==== Sys2Proof/Laws/Transactions.lean ====
section
/-! SUPPORT. One lemma per outcome of each transaction, of the routed accesses, of the trace part and of the step, and
for each of them one lemma that lists its outcomes. Later proofs cite these and unfold none of the operations. -/

namespace Sys2Proof.Machine

/-! ### The state a transaction leaves -/

/-- What `InRead` leaves (R172), by the host's next answer. -/
theorem inRead_cases (s : State) :
    ((nextInput s).1 = none ∧
      inRead s = .stopped { s with wait := .waitIn, env := { s.env with inAnswers := (nextInput s).2 } }) ∨
    ∃ a, (nextInput s).1 = some a ∧
      inRead s = .done a { s with
        wait := .none
        env := { s.env with inAnswers := (nextInput s).2, log := s.env.log ++ [.input a] } } := by
  rcases h : nextInput s with ⟨_ | a, rest⟩ <;> simp [inRead, h]

/-- What `OutWrite` leaves (R173), by the host's next answer. -/
theorem outWrite_cases (u : Byte) (s : State) :
    ((nextOutput s).1 = none ∧
      outWrite u s = .stopped { s with wait := .waitOut, env := { s.env with outAnswers := (nextOutput s).2 } }) ∨
    ∃ a, (nextOutput s).1 = some a ∧
      outWrite u s = .done a { s with
        wait := .none
        env := { s.env with outAnswers := (nextOutput s).2, log := s.env.log ++ [.output u a] } } := by
  rcases h : nextOutput s with ⟨_ | a, rest⟩ <;> simp [outWrite, h]

/-- What `TraceWrite` leaves (R174), by the host's next answer. -/
theorem traceWrite_cases (r : TraceRecord) (s : State) :
    ((nextTrace s).1 = none ∧
      traceWrite r s =
        .stopped { s with wait := .waitTrace, env := { s.env with traceAnswers := (nextTrace s).2 } }) ∨
    ∃ a, (nextTrace s).1 = some a ∧
      traceWrite r s = .done a { s with
        wait := .none
        env := { s.env with traceAnswers := (nextTrace s).2, log := s.env.log ++ [.trace r a] } } := by
  rcases h : nextTrace s with ⟨_ | a, rest⟩ <;> simp [traceWrite, h]

/-! ### Routed accesses -/

/-- Everything `LoadRouted` can do (R43). -/
theorem loadRouted_cases (a : Word) (s : State) :
    (isIo a = false ∧ loadRouted a s = .done (memRead s.mem a.toNat) s) ∨
    (isIo a = true ∧ (nextInput s).1 = none ∧
      loadRouted a s =
        .stopped { s with wait := .waitIn, env := { s.env with inAnswers := (nextInput s).2 } }) ∨
    (isIo a = true ∧ ∃ u, (nextInput s).1 = some (.unit u) ∧
      loadRouted a s = .done (u.setWidth 16) { s with
        wait := .none
        env := { s.env with inAnswers := (nextInput s).2, log := s.env.log ++ [.input (.unit u)] } }) ∨
    (isIo a = true ∧ ∃ x, (x = .endOfInput ∨ x = .failure) ∧ (nextInput s).1 = some x ∧
      loadRouted a s = .stopped { s with
        status := .faultIn
        wait := .none
        env := { s.env with inAnswers := (nextInput s).2, log := s.env.log ++ [.input x] } }) := by
  cases hio : isIo a
  · simp [loadRouted, hio]
  · rcases inRead_cases s with ⟨h, e⟩ | ⟨x, h, e⟩
    · simp [loadRouted, hio, h, e]
    · cases x <;> simp [loadRouted, hio, h, e, raiseFault]

/-- Everything `StoreRouted` can do (R44). -/
theorem storeRouted_cases (a v : Word) (s : State) :
    (isIo a = false ∧ storeRouted a v s = .done (memWrite s.mem a.toNat v) s) ∨
    (isIo a = true ∧ (nextOutput s).1 = none ∧
      storeRouted a v s =
        .stopped { s with wait := .waitOut, env := { s.env with outAnswers := (nextOutput s).2 } }) ∨
    (isIo a = true ∧ (nextOutput s).1 = some .ok ∧
      storeRouted a v s = .done s.mem { s with
        wait := .none
        env := { s.env with
          outAnswers := (nextOutput s).2, log := s.env.log ++ [.output (v.setWidth 8) .ok] } }) ∨
    (isIo a = true ∧ (nextOutput s).1 = some .failure ∧
      storeRouted a v s = .stopped { s with
        status := .faultOut
        wait := .none
        env := { s.env with
          outAnswers := (nextOutput s).2, log := s.env.log ++ [.output (v.setWidth 8) .failure] } }) := by
  cases hio : isIo a
  · simp [storeRouted, hio]
  · rcases outWrite_cases (v.setWidth 8) s with ⟨h, e⟩ | ⟨x, h, e⟩
    · simp [storeRouted, hio, h, e]
    · cases x <;> simp [storeRouted, hio, h, e, raiseFault]

/-! ### The trace part -/

/-- Everything part 5 of the step can do (R87). -/
theorem tracePart_cases (s : State) :
    ((s.traceEn = false ∨ s.wait.traceDue = false) ∧ tracePart s = .done () s) ∨
    (s.traceEn = true ∧ s.wait.traceDue = true ∧ (nextTrace s).1 = none ∧
      tracePart s =
        .stopped { s with wait := .waitTrace, env := { s.env with traceAnswers := (nextTrace s).2 } }) ∨
    (s.traceEn = true ∧ s.wait.traceDue = true ∧ (nextTrace s).1 = some .ok ∧
      tracePart s = .done () { s with
        wait := .none
        env := { s.env with
          traceAnswers := (nextTrace s).2, log := s.env.log ++ [.trace (traceRecord s) .ok] } }) ∨
    (s.traceEn = true ∧ s.wait.traceDue = true ∧ (nextTrace s).1 = some .failure ∧
      tracePart s = .stopped { s with
        status := .faultTrace
        wait := .none
        env := { s.env with
          traceAnswers := (nextTrace s).2, log := s.env.log ++ [.trace (traceRecord s) .failure] } }) := by
  cases he : s.traceEn
  · simp [tracePart, he]
  · cases hd : s.wait.traceDue
    · simp [tracePart, hd]
    · rcases traceWrite_cases (traceRecord s) s with ⟨h, e⟩ | ⟨x, h, e⟩
      · simp [tracePart, he, hd, h, e]
      · cases x <;> simp [tracePart, he, hd, h, e, raiseFault]

/-! ### The step -/

/-- In a terminal status the step changes nothing (R166). -/
theorem cycle_of_ended (map : OpcodeMap) {s : State} (h : s.status ≠ .run) : cycle map s = .next s := by
  cases hs : s.status <;> simp_all [cycle]

/-- Everything a call of the step in RUN can do: run the decoded instruction, at once or after the trace record was
answered Ok; hold on the trace port; or end with FAULT_TRACE (R87, R90). -/
theorem cycle_run_cases (map : OpcodeMap) {s : State} (h : s.status = .run) :
    ((s.traceEn = false ∨ s.wait.traceDue = false) ∧ cycle map s = exec (decodeWith map (fetchWord s)) s) ∨
    (s.traceEn = true ∧ s.wait.traceDue = true ∧ (nextTrace s).1 = none ∧
      cycle map s =
        .next { s with wait := .waitTrace, env := { s.env with traceAnswers := (nextTrace s).2 } }) ∨
    (s.traceEn = true ∧ s.wait.traceDue = true ∧ (nextTrace s).1 = some .ok ∧
      cycle map s = exec (decodeWith map (fetchWord s)) { s with
        wait := .none
        env := { s.env with
          traceAnswers := (nextTrace s).2, log := s.env.log ++ [.trace (traceRecord s) .ok] } }) ∨
    (s.traceEn = true ∧ s.wait.traceDue = true ∧ (nextTrace s).1 = some .failure ∧
      cycle map s = .next { s with
        status := .faultTrace
        wait := .none
        env := { s.env with
          traceAnswers := (nextTrace s).2, log := s.env.log ++ [.trace (traceRecord s) .failure] } }) := by
  rcases tracePart_cases s with ⟨h1, e⟩ | ⟨h1, h2, h3, e⟩ | ⟨h1, h2, h3, e⟩ | ⟨h1, h2, h3, e⟩ <;> simp [cycle, *]

/-! ### The instructions -/

/-- Everything LOAD can do (R120). -/
theorem execLoad_cases (o : Operand) (s : State) :
    (isIo (effOperand o s) = false ∧
      exec (.load o) s = .next { s with
        acc := memRead s.mem (effOperand o s).toNat, ctrl := candidate s, wait := .none }) ∨
    (isIo (effOperand o s) = true ∧ (nextInput s).1 = none ∧
      exec (.load o) s =
        .next { s with wait := .waitIn, env := { s.env with inAnswers := (nextInput s).2 } }) ∨
    (isIo (effOperand o s) = true ∧ ∃ u, (nextInput s).1 = some (.unit u) ∧
      exec (.load o) s = .next { s with
        acc := u.setWidth 16
        ctrl := candidate s
        wait := .none
        env := { s.env with inAnswers := (nextInput s).2, log := s.env.log ++ [.input (.unit u)] } }) ∨
    (isIo (effOperand o s) = true ∧ ∃ x, (x = .endOfInput ∨ x = .failure) ∧
      (nextInput s).1 = some x ∧
      exec (.load o) s = .next { s with
        status := .faultIn
        wait := .none
        env := { s.env with inAnswers := (nextInput s).2, log := s.env.log ++ [.input x] } }) := by
  rcases loadRouted_cases (effOperand o s) s with ⟨h, e⟩ | ⟨h, h1, e⟩ | ⟨h, u, h1, e⟩ | ⟨h, x, hx, h1, e⟩
  · exact .inl ⟨h, by simp [exec, execLoad, e, commit]⟩
  · exact .inr (.inl ⟨h, h1, by simp [exec, execLoad, e]⟩)
  · exact .inr (.inr (.inl ⟨h, u, h1, by simp [exec, execLoad, e, commit]⟩))
  · exact .inr (.inr (.inr ⟨h, x, hx, h1, by simp [exec, execLoad, e]⟩))

/-- Everything STORE can do (R121). -/
theorem execStore_cases (o : Operand) (s : State) :
    (isIo (effOperand o s) = false ∧
      exec (.store o) s = .next { s with
        mem := memWrite s.mem (effOperand o s).toNat s.acc, ctrl := candidate s, wait := .none }) ∨
    (isIo (effOperand o s) = true ∧ (nextOutput s).1 = none ∧
      exec (.store o) s =
        .next { s with wait := .waitOut, env := { s.env with outAnswers := (nextOutput s).2 } }) ∨
    (isIo (effOperand o s) = true ∧ (nextOutput s).1 = some .ok ∧
      exec (.store o) s = .next { s with
        ctrl := candidate s
        wait := .none
        env := { s.env with
          outAnswers := (nextOutput s).2, log := s.env.log ++ [.output (s.acc.setWidth 8) .ok] } }) ∨
    (isIo (effOperand o s) = true ∧ (nextOutput s).1 = some .failure ∧
      exec (.store o) s = .next { s with
        status := .faultOut
        wait := .none
        env := { s.env with
          outAnswers := (nextOutput s).2, log := s.env.log ++ [.output (s.acc.setWidth 8) .failure] } }) := by
  rcases storeRouted_cases (effOperand o s) s.acc s with ⟨h, e⟩ | ⟨h, h1, e⟩ | ⟨h, h1, e⟩ | ⟨h, h1, e⟩
  · exact .inl ⟨h, by simp [exec, execStore, e, commit]⟩
  · exact .inr (.inl ⟨h, h1, by simp [exec, execStore, e]⟩)
  · exact .inr (.inr (.inl ⟨h, h1, by simp [exec, execStore, e, commit]⟩))
  · exact .inr (.inr (.inr ⟨h, h1, by simp [exec, execStore, e]⟩))

/-- The effective operand depends on memory only (R63, R86). -/
theorem effOperand_congr {s t : State} (o : Operand) (h : t.mem = s.mem) : effOperand o t = effOperand o s := by
  cases o <;> simp [effOperand, h]

/-- What the host answers next at the input port depends on its answers there only. -/
theorem nextInput_congr {s t : State} (h : t.env.inAnswers = s.env.inAnswers) : nextInput t = nextInput s := by
  rw [nextInput, h, nextInput]

/-- What the host answers next at the output port depends on its answers there only. -/
theorem nextOutput_congr {s t : State} (h : t.env.outAnswers = s.env.outAnswers) : nextOutput t = nextOutput s := by
  rw [nextOutput, h, nextOutput]

/-- What the host answers next at the trace port depends on its answers there only. -/
theorem nextTrace_congr {s t : State} (h : t.env.traceAnswers = s.env.traceAnswers) : nextTrace t = nextTrace s := by
  rw [nextTrace, h, nextTrace]

/-- The fetched word depends on CTRL and memory only (R84). -/
theorem fetchWord_congr {s t : State} (hc : t.ctrl = s.ctrl) (hm : t.mem = s.mem) : fetchWord t = fetchWord s := by
  simp [fetchWord, hc, hm]

end Sys2Proof.Machine
end

