-- ==== Sys2Proof/Laws/Units.lean ====
section
/-! SUPPORT. The unit sequences of a run (70_reset_and_hazards.md R200) over a log that grows at its end. -/

namespace Sys2Proof.Machine

/-- The units taken in a log followed by another are those of the one and then those of the other. -/
@[simp] theorem unitsTaken_append (l l' : List Event) : unitsTaken (l ++ l') = unitsTaken l ++ unitsTaken l' := by
  induction l using unitsTaken.induct <;> simp_all [unitsTaken]

/-- The units given in a log followed by another are those of the one and then those of the other. -/
@[simp] theorem unitsGiven_append (l l' : List Event) : unitsGiven (l ++ l') = unitsGiven l ++ unitsGiven l' := by
  induction l using unitsGiven.induct <;> simp_all [unitsGiven]

end Sys2Proof.Machine
end

