-- ==== Sys2Proof/Tests/Slice0.lean ====
section
/-! SUPPORT. The model's own tests. Expected values come from spec/95_test_vectors.md (the vector is named in each
comment) or from a word written out bit by bit from 30_encoding.md R61 and R64. The witness theorems show, for each
statement with hypotheses, states and operands that meet them, at the boundaries of its clauses. -/

namespace Sys2Proof.Tests

open Sys2Proof Sys2Proof.Machine

/-- A small state: RUN, no tracing, N = 8192, the listed cells (rising, nonzero). -/
def st (ctrl acc : Word) (cells : List (Nat × Word)) : State :=
  { State.reset with ctrl := ctrl, acc := acc, mem := { last := 8191, cells := cells } }

/-- `st` with the host's answers for the three ports, in the order input, output, trace, and silence after them. -/
def stEnv (ctrl acc : Word) (cells : List (Nat × Word)) (ia : List (Option InAnswer)) (oa ta : List (Option Ack)) :
    State :=
  { st ctrl acc cells with env :=
    { inAnswers := .ofList ia, outAnswers := .ofList oa, traceAnswers := .ofList ta, log := [] } }

/-- `s` with TRACE_EN. -/
def traced (s : State) : State := { s with traceEn := true }

/-- CTRL = 0 with the instruction `w` in cell 0 and the address 0x8000 in cell 0x100, traced, and a host that answers
every call for ever. -/
def endlessLoop (w acc : Word) (log : List Event) : State :=
  { traced (st 0 acc [(0, w), (0x100, 0x8000)]) with
    env := { inAnswers := { listed := [], after := .repeats (some (.unit 0x61)) [] }
             outAnswers := { listed := [], after := .repeats (some .ok) [] }
             traceAnswers := { listed := [], after := .repeats (some .ok) [] }
             log := log } }

/-- A host that repeats one answer gives it to every call. -/
theorem repeated_answer {α : Type} (draw : Nat → Option α) (x : Option α) (n : Nat) :
    answerAt draw { listed := [], after := .repeats x [] } n = x := by
  induction n with
  | zero => rfl
  | succ n ih => rw [answerAt_succ, nextAnswer_repeats, ih]

/-- A silent host answers no call. -/
theorem silent_never_answers {α : Type} (draw : Nat → Option α) (n : Nat) :
    answerAt draw (.ofList []) n = none := by
  induction n with
  | zero => rfl
  | succ n ih => exact ih

/-- The next state of one step. -/
def nextOf (s : State) : Option State :=
  match step s with
  | .next t => some t
  | .fault _ => none
  | .refused _ => none

/-- CTRL, ACC and STATUS after one step. -/
def regsAfter (s : State) : Option (Word × Word × Status) := (nextOf s).map fun t => (t.ctrl, t.acc, t.status)

/-! ## Well-formedness -/

/-- R68: only SHL and SHR are written without an operand. -/
theorem test_bare_and_refused : (AsmInstr.bare .and).wellFormed = false := by decide
/-- R68: `#k` with k above 4095. -/
theorem test_immediate_out_of_range_refused : (AsmInstr.imm .xor 4096).wellFormed = false := by decide
/-- R68: `@k` with k above 4095. -/
theorem test_indirect_out_of_range_refused : (AsmInstr.ind .load 4096).wellFormed = false := by decide
/-- An ill-formed line is assembled to nothing. -/
theorem test_ill_formed_not_assembled : assemble (.imm .jmp 4096) = none := by decide
/-- Indices out of order are not canonical. -/
theorem test_unsorted_memory_refused : ¬ ({ last := 8191, cells := [(2, 1), (1, 1)] } : Memory).wf := by decide
/-- A repeated index is not canonical. -/
theorem test_repeated_index_refused : ¬ ({ last := 8191, cells := [(1, 1), (1, 2)] } : Memory).wf := by decide
/-- A listed 0 is not canonical. -/
theorem test_listed_zero_refused : ¬ ({ last := 8191, cells := [(1, 0)] } : Memory).wf := by decide
/-- An index at N is not canonical. -/
theorem test_index_at_size_refused : ¬ ({ last := 8191, cells := [(8192, 1)] } : Memory).wf := by decide

/-! ## Words written out from the encoding: m, op, k -/

theorem test_decode_and : decode 0b0000000011110000#16 = .and (.imm 0x0F0) := by decide
theorem test_decode_xor : decode 0b1001000100000000#16 = .xor (.ind 0x100) := by decide
theorem test_decode_shl : decode 0b0010000000000000#16 = .shl (.imm 0) := by decide
theorem test_decode_shr : decode 0b1011000100100011#16 = .shr (.ind 0x123) := by decide
theorem test_decode_load : decode 0b0100000000000101#16 = .load (.imm 5) := by decide
theorem test_decode_store : decode 0b1101000100000000#16 = .store (.ind 0x100) := by decide
theorem test_decode_jmp : decode 0b0110000001011100#16 = .jmp (.imm 0x05C) := by decide
theorem test_decode_jz : decode 0b1111111111111111#16 = .jz (.ind 0xFFF) := by decide
theorem test_encode_jz : encode (.jz (.imm 0x200)) = 0x7200 := by decide
/-- The host's numbering of a row's word. -/
theorem test_table_word : decodeTableWord 16 0xD100 = some (.store (.ind 0x100)) := by decide
/-- No instruction is longer than one word (R60). -/
theorem test_two_words_refused : decodeTableWord 32 0xD100 = none := by decide

/-! ## The assembler's notation -/

/-- R68: "SHL and SHR with no operand when m = 0 and k = 0, and with their operand otherwise". -/
theorem test_disassemble_shifts :
    disassemble 0x2000 = .bare .shl ∧ disassemble 0xB123 = .ind .shr 0x123 := by decide
/-- Program P1's first lines, placed along the sequencer (R69). -/
theorem test_place_p1 :
    Asm.place (some 0) [.instr (.imm .jmp 1), .org 1, .instr (.imm .load 5), .instr (.imm .xor 3), .halt,
        .org 5, .word 5] =
      some [(0x000, 0x6001), (0x001, 0x4005), (0x0B8, 0x1003), (0x05C, 0x605C), (0x005, 0x0005)] := by decide
/-- R69: NOP, and LI with its second word at the successor of its first. -/
theorem test_pseudo_words :
    Asm.place (some 1) (Asm.nop ++ Asm.li 0x123) = some [(1, 0x1000), (0xB8, 0), (0x5C, 0x1123)] := by decide

/-! ## The sequencer -/

/-- The first values of R94's cycle. -/
theorem test_cycle_start :
    (List.range 8).map (fun n => seqNext^[n] 1) = [0x01, 0xB8, 0x5C, 0x2E, 0x17, 0xB3, 0xE1, 0xC8] := by decide
/-- R81 (c) at 0x80 and 0xFE, where 95_test_vectors.md section 2 misprints Linv (notes/assumptions/23.md). -/
theorem test_linv_high_bit :
    seqPrev 0x80 = 0x71 ∧ seqNext 0x71 = 0x80 ∧ seqPrev 0xFE = 0x8D ∧ seqNext 0x8D = 0xFE := by decide
/-- Candidate with narrowing, 95_test_vectors.md section 2. -/
theorem test_candidates :
    candidateOf 0x01B8 = 0x005C ∧ candidateOf 0xFF02 = 0x0001 ∧ candidateOf 0x8000 = 0 := by decide

/-! ## Single steps of 95_test_vectors.md section 4 -/

/-- V-AND-5. -/
theorem test_and_indirect :
    regsAfter (st 0x00B8 0xA5A5 [(0xB8, 0x8100), (0x100, 0x0F0F)]) = some (0x005C, 0x0505, .run) := by decide
/-- V-AND-6: the cell fetched is 0x105 and the candidate is L(0x05). -/
theorem test_and_narrows : regsAfter (st 0x0105 0x1234 [(0x105, 0x0F00)]) = some (0x00BA, 0x0200, .run) := by decide
/-- V-XOR-1. -/
theorem test_xor_immediate : regsAfter (st 0x00B8 0x0005 [(0xB8, 0x1003)]) = some (0x005C, 0x0006, .run) := by decide
/-- V-XOR-5. -/
theorem test_xor_high_bit :
    regsAfter (st 0x0001 0x8000 [(1, 0x9100), (0x100, 0xFFFF)]) = some (0x00B8, 0x7FFF, .run) := by decide
/-- V-SHL-1. -/
theorem test_shl_drops_high_bit : regsAfter (st 0x0001 0x8001 [(1, 0x2000)]) = some (0x00B8, 0x0002, .run) := by decide
/-- V-SHL-4. -/
theorem test_shl_ignores_operand :
    regsAfter (st 0x0001 0x0001 [(1, 0xAFFF), (0xFFF, 0x1234)]) = some (0x00B8, 0x0002, .run) := by decide
/-- V-SHR-1. -/
theorem test_shr_is_logical : regsAfter (st 0x0001 0x8001 [(1, 0x3000)]) = some (0x00B8, 0x4000, .run) := by decide
/-- V-SHR-4. -/
theorem test_shr_ignores_operand :
    regsAfter (st 0x0002 0x8000 [(2, 0xB123), (0x123, 0x5555)]) = some (0x0001, 0x4000, .run) := by decide
/-- V-LOAD-3: 0x2005 names cell 5. -/
theorem test_load_wraps :
    regsAfter (st 0x0001 0x1111 [(1, 0xC100), (5, 0xBEEF), (0x100, 0x2005)]) = some (0x00B8, 0xBEEF, .run) := by decide
/-- V-LOAD-5: an input unit is not sign-extended. -/
theorem test_load_input :
    regsAfter (stEnv 0x0001 0x1111 [(1, 0xC100), (0x100, 0xFFFF)] [some (.unit 0xFF)] [] []) =
      some (0x00B8, 0x00FF, .run) := by decide
/-- V-STORE-3: 0x2005 names cell 5. -/
theorem test_store_wraps :
    (nextOf (st 0x0001 0xABCD [(1, 0xD100), (0x100, 0x2005)])).map (·.mem.cells) =
      some [(1, 0xD100), (5, 0xABCD), (0x100, 0x2005)] := by decide
/-- V-STORE-2: the unit offered is ACC's low byte, and no cell changes. -/
theorem test_store_output :
    (nextOf (stEnv 0x0001 0xABCD [(1, 0xD100), (0x100, 0x8000)] [] [some .ok] [])).map
        (fun t => (t.ctrl, t.mem.cells, unitsTaken t.env.log)) =
      some (0x00B8, [(1, 0xD100), (0x100, 0x8000)], [0xCD]) := by decide
/-- V-JMP-5: eff equals CTRL modulo N only, so no halt. -/
theorem test_jmp_aliased_does_not_halt :
    regsAfter (st 0x2005 0 [(5, 0x6005)]) = some (0x0005, 0, .run) := by decide
/-- V-JMP-7: a halt above 4095 words through the indirect form. -/
theorem test_jmp_indirect_halts :
    regsAfter (st 0x01B8 0 [(0x100, 0x01B8), (0x1B8, 0xE100)]) = some (0x01B8, 0, .halt) := by decide
/-- V-JZ-3: taken to itself, and still running. -/
theorem test_jz_to_itself_runs_on : regsAfter (st 0x005C 0 [(0x5C, 0x705C)]) = some (0x005C, 0, .run) := by decide
/-- V-JZ-4: the test is on all 16 bits. -/
theorem test_jz_tests_all_bits : regsAfter (st 0x005C 0x0100 [(0x5C, 0x7200)]) = some (0x002E, 0x0100, .run) := by decide

/-! ## Trace, faults, holds (section 5), reset and loading -/

/-- V-LOAD-6. -/
theorem test_end_of_input_faults :
    regsAfter (stEnv 0x0001 0x1111 [(1, 0xC100), (0x100, 0x8000)] [some .endOfInput] [] []) =
      some (0x0001, 0x1111, .faultIn) := by decide
/-- V-STORE-6. -/
theorem test_output_failure_faults :
    regsAfter (stEnv 0x0001 0xABCD [(1, 0xD100), (0x100, 0x8000)] [] [some .failure] []) =
      some (0x0001, 0xABCD, .faultOut) := by decide
/-- V-TR-1. -/
theorem test_trace_record :
    (nextOf (traced (stEnv 0x00B8 0x0080 [(0xB8, 0x3000)] [] [] [some .ok]))).map
        (fun t => (t.ctrl, t.acc, t.env.log)) =
      some (0x005C, 0x0040, [.trace { addr := 0x00B8, word := 0x3000, acc := 0x0080, op := 3 } .ok]) := by decide
/-- V-TR-5: a trace failure before a halting JMP is FAULT_TRACE. -/
theorem test_trace_failure_before_halt :
    regsAfter (traced (stEnv 0x005C 0 [(0x5C, 0x605C)] [] [] [some .failure])) =
      some (0x005C, 0, .faultTrace) := by decide
/-- V-TR-4: the record is sent, then the input faults. -/
theorem test_trace_then_input_fault :
    (nextOf (traced (stEnv 0x0001 7 [(1, 0xC100), (0x100, 0x8000)] [some .endOfInput] [] [some .ok]))).map
        (fun t => (t.status, t.ctrl, t.env.log)) =
      some (.faultIn, 0x0001, [.trace { addr := 0x0001, word := 0xC100, acc := 7, op := 4 } .ok,
        .input .endOfInput]) := by decide
/-- V-HOLD-1: WAIT_IN, RUN, nothing changed. -/
theorem test_unanswered_input_holds :
    nextOf (st 0x0001 0x1111 [(1, 0xC100), (0x100, 0x8000)]) =
      some { st 0x0001 0x1111 [(1, 0xC100), (0x100, 0x8000)] with wait := .waitIn } := by decide
/-- A held step does not send its trace record again (R174). -/
theorem test_resumed_step_does_not_trace_again :
    (nextOf { traced (stEnv 0x0001 0 [(1, 0xC100), (0x100, 0x8000)] [some (.unit 0x61)] [] [some .ok]) with
        wait := .waitIn }).map (fun t => (t.acc, t.wait, t.env.log)) =
      some (0x0061, .none, [.input (.unit 0x61)]) := by decide
/-- S6 and S7: the listings "1,2,3" and "1,x,3". -/
theorem test_loader :
    (loadImage 8191 [some 1, some 2, some 3]).cells = [(0, 1), (1, 2), (2, 3)] ∧
    (loadImage 8191 [some 1, none, some 3]).cells = [(0, 1)] := by decide
/-- A memory of two cells is full after two words (R191). -/
theorem test_loader_stops_when_full : (loadImage 1 [some 1, some 2, some 3]).cells = [(0, 1), (1, 2)] := by decide
/-- The host's placement of a row's word after reset runs it: `JMP #0` at 0 halts (S8, scenario A). -/
theorem test_scenario_a : regsAfter (State.reset.withFetchWord 16 0x6000) = some (0, 0, .halt) := by decide

/-! ## Witnesses -/

theorem witness_MemoryReadsAndWritesModuloN :
    ({ last := 0xFFFF, cells := [(65535, 1)] } : Memory).wf ∧ ({ last := 0, cells := [(0, 1)] } : Memory).wf := by
  decide

theorem witness_AddressesAlias : ({ last := 8191, cells := [(5, 1)] } : Memory).size = 8192 := by decide

theorem witness_CanonicalMemoriesEqual :
    ∃ m m' : Memory, m.wf ∧ m'.wf ∧ m.last = m'.last ∧ m.cells ≠ [] ∧ ∀ a, memRead m a = memRead m' a :=
  ⟨{ last := 8191, cells := [(5, 1)] }, memWrite { last := 8191, cells := [] } 5 1,
    by decide, by decide, by decide, by decide, fun _ => rfl⟩

/-- Both disjuncts, each at its boundary. -/
theorem witness_OnlyIndirectOperandsReachTheIoHalf :
    isIo (effOperand (.ind 0x100) (st 1 0 [(0x100, 0x8000)])) = true ∧
    isIo (effOperand (.ind 0x100) (st 1 0 [(0x100, 0x1000)])) = false ∧
    4096 ≤ (effOperand (.ind 0x100) (st 1 0 [(0x100, 0x1000)])).toNat := by decide

theorem witness_AndResult : defaultOpcodeMap ((0x8100 : Word).extractLsb' 12 3) = .and := by decide
theorem witness_XorResult : defaultOpcodeMap ((0x1FFF : Word).extractLsb' 12 3) = .xor := by decide
theorem witness_ShlResult : defaultOpcodeMap ((0x2000 : Word).extractLsb' 12 3) = .shl := by decide
theorem witness_ShrResult : defaultOpcodeMap ((0xBFFF : Word).extractLsb' 12 3) = .shr := by decide

/-- The highest memory address, with N = 8192. -/
theorem witness_LoadFromMemory : isIo (effOperand (.ind 0x100) (st 1 0 [(0x100, 0x7FFF)])) = false := by decide

/-- The lowest I/O address. -/
theorem witness_LoadFromInput :
    isIo (effOperand (.ind 0x100) (stEnv 1 0 [(0x100, 0x8000)] [some (.unit 0xFF)] [] [])) = true ∧
    nextInput (stEnv 1 0 [(0x100, 0x8000)] [some (.unit 0xFF)] [] []) = (some (.unit 0xFF), .ofList []) := by decide

/-- Both failing answers, at the highest I/O address. -/
theorem witness_LoadInputFailureFaults :
    isIo (effOperand (.ind 0x100) (stEnv 1 0 [(0x100, 0xFFFF)] [some .endOfInput] [] [])) = true ∧
    nextInput (stEnv 1 0 [(0x100, 0xFFFF)] [some .endOfInput] [] []) = (some .endOfInput, .ofList []) ∧
    isIo (effOperand (.ind 0x100) (stEnv 1 0 [(0x100, 0xFFFF)] [some .failure] [] [])) = true ∧
    nextInput (stEnv 1 0 [(0x100, 0xFFFF)] [some .failure] [] []) = (some .failure, .ofList []) := by decide

theorem witness_LoadHoldsUntilAnswered :
    isIo (effOperand (.ind 0x100) (stEnv 1 0 [(0x100, 0x8000)] [] [] [])) = true ∧
    nextInput (stEnv 1 0 [(0x100, 0x8000)] [] [] []) = (none, .ofList []) ∧
    isIo (effOperand (.ind 0x100) (stEnv 1 0 [(0x100, 0x8000)] [none, some (.unit 1)] [] [])) = true ∧
    nextInput (stEnv 1 0 [(0x100, 0x8000)] [none, some (.unit 1)] [] []) = (none, .ofList [some (.unit 1)]) := by decide

/-- The highest memory address, canonical memory, and an address outside the stored cell. -/
theorem witness_StoreToMemory :
    isIo (effOperand (.ind 0x100) (st 1 0xABCD [(0x100, 0x7FFF)])) = false ∧
    (st 1 0xABCD [(0x100, 0x7FFF)]).mem.wf ∧
    8190 % (st 1 0xABCD [(0x100, 0x7FFF)]).mem.size ≠
      (effOperand (.ind 0x100) (st 1 0xABCD [(0x100, 0x7FFF)])).toNat % (st 1 0xABCD [(0x100, 0x7FFF)]).mem.size := by
  decide

theorem witness_StoreToOutput :
    isIo (effOperand (.ind 0x100) (stEnv 1 0 [(0x100, 0x8000)] [] [some .ok] [])) = true ∧
    nextOutput (stEnv 1 0 [(0x100, 0x8000)] [] [some .ok] []) = (some .ok, .ofList []) := by decide

theorem witness_StoreOutputFailureFaults :
    isIo (effOperand (.ind 0x100) (stEnv 1 0 [(0x100, 0xFFFF)] [] [some .failure] [])) = true ∧
    nextOutput (stEnv 1 0 [(0x100, 0xFFFF)] [] [some .failure] []) = (some .failure, .ofList []) := by decide

theorem witness_StoreHoldsUntilAnswered :
    isIo (effOperand (.ind 0x100) (stEnv 1 0 [(0x100, 0x8000)] [] [] [])) = true ∧
    nextOutput (stEnv 1 0 [(0x100, 0x8000)] [] [] []) = (none, .ofList []) ∧
    isIo (effOperand (.ind 0x100) (stEnv 1 0 [(0x100, 0x8000)] [] [none] [])) = true ∧
    nextOutput (stEnv 1 0 [(0x100, 0x8000)] [] [none] []) = (none, .ofList []) := by decide

/-- A halting jump, and one whose target equals CTRL modulo N only. -/
theorem witness_JmpTransfersOrHalts :
    effOperand (.imm 5) (st 5 0 []) = (st 5 0 []).ctrl ∧ effOperand (.imm 5) (st 0x2005 0 []) ≠ (st 0x2005 0 []).ctrl ∧
    defaultOpcodeMap ((0x6FFF : Word).extractLsb' 12 3) = .jmp := by decide

/-- ACC = 0, and an ACC whose low byte is 0. -/
theorem witness_JzTransfersOnZero :
    (st 5 0 []).acc = 0 ∧ (st 5 0x0100 []).acc ≠ 0 ∧ defaultOpcodeMap ((0xF000 : Word).extractLsb' 12 3) = .jz := by
  decide

theorem witness_JmpAndLoadIgnoreAcc :
    (st 1 7 []).status = .run ∧ (∃ t, exec (.jmp (.imm 9)) (st 1 7 []) = .next t) ∧
    ∃ t, exec (.load (.imm 5)) (st 1 7 [(5, 3)]) = .next t ∧ t.acc = 3 :=
  ⟨by decide, ⟨_, rfl⟩, ⟨_, rfl, by decide⟩⟩

/-- No tracing; a step held on each channel with tracing; and a terminal status. -/
theorem witness_StepRunsTheDecodedInstruction :
    ((st 1 0 []).status = .run ∧ (st 1 0 []).traceEn = false) ∧
    ({ traced (st 1 0 []) with wait := .waitIn }.status = .run ∧
      { traced (st 1 0 []) with wait := .waitIn }.wait = .waitIn) ∧
    { traced (st 1 0 []) with wait := .waitOut }.wait = .waitOut ∧
    { st 1 0 [] with status := .halt }.status ≠ .run := by decide

/-- The step without tracing, and the four cases of the host's list with it. -/
theorem witness_TracePartOfTheStep :
    (st 1 0 []).traceEn = false ∧ (st 1 0 []).wait = .none ∧ (st 1 0 []).status = .run ∧
    nextTrace (traced (st 1 0 [])) = (none, .ofList []) ∧ (traced (st 1 0 [])).traceEn = true ∧
    nextTrace { traced (stEnv 1 0 [] [] [] [none, some .ok]) with wait := .waitTrace } = (none, .ofList [some .ok]) ∧
    nextTrace (traced (stEnv 1 0 [] [] [] [some .ok])) = (some .ok, .ofList []) ∧
    nextTrace (traced (stEnv 1 0 [] [] [] [some .failure])) = (some .failure, .ofList []) := by decide

/-- A step that stores, to cell 5 through the address 0x2005, and an address outside that cell. -/
theorem witness_OnlyStoreWritesMemory :
    (∃ t, cycle defaultOpcodeMap (st 1 0xABCD [(1, 0xD100), (0x100, 0x2005)]) = .next t ∧
      t.mem ≠ (st 1 0xABCD [(1, 0xD100), (0x100, 0x2005)]).mem) ∧
    (fetched defaultOpcodeMap (st 1 0xABCD [(1, 0xD100), (0x100, 0x2005)])).operation = .store ∧
    6 % 8192 ≠ 0x2005 % 8192 :=
  ⟨⟨_, rfl, by decide⟩, by decide, by decide⟩

theorem witness_AccumulatorWriters :
    ∃ t, cycle defaultOpcodeMap (st 1 7 [(1, 0x2000)]) = .next t ∧ t.acc ≠ (st 1 7 [(1, 0x2000)]).acc :=
  ⟨_, rfl, by decide⟩

/-- A transfer, a taken JZ and a fall-through complete. -/
theorem witness_ControlAfterACompletedStep :
    (∃ t, Completes defaultOpcodeMap (st 1 7 [(1, 0x6009)]) t) ∧
    (∃ t, Completes defaultOpcodeMap (st 1 0 [(1, 0x7009)]) t) ∧
    ∃ t, Completes defaultOpcodeMap (st 1 7 [(1, 0x7009)]) t :=
  ⟨⟨_, rfl, rfl, rfl, rfl⟩, ⟨_, rfl, rfl, rfl, rfl⟩, ⟨_, rfl, rfl, rfl, rfl⟩⟩

/-- A halt, a fault and a hold. -/
theorem witness_IncompleteStepCommitsNothing :
    (∃ t, cycle defaultOpcodeMap (st 1 7 [(1, 0x6001)]) = .next t ∧ t.status = .halt) ∧
    (∃ t, cycle defaultOpcodeMap (stEnv 1 7 [(1, 0xC100), (0x100, 0x8000)] [some .failure] [] []) = .next t ∧
      t.status = .faultIn) ∧
    ∃ t, cycle defaultOpcodeMap (st 1 7 [(1, 0xD100), (0x100, 0x8000)]) = .next t ∧ t.wait = .waitOut :=
  ⟨⟨_, rfl, rfl⟩, ⟨_, rfl, rfl⟩, ⟨_, rfl, rfl⟩⟩

theorem witness_ConfigurationIsConstant : ∃ t, cycle defaultOpcodeMap (traced (st 1 7 [])) = .next t := ⟨_, rfl⟩

/-- A LOAD from the highest memory address, and an output STORE. -/
theorem witness_ChannelsOnlyOnTheIoHalf :
    ((∃ t, cycle defaultOpcodeMap (st 1 7 [(1, 0xC100), (0x100, 0x7FFF)]) = .next t) ∧
      isIo (effOperand (fetched defaultOpcodeMap (st 1 7 [(1, 0xC100), (0x100, 0x7FFF)])).operand
        (st 1 7 [(1, 0xC100), (0x100, 0x7FFF)])) = false) ∧
    (∃ t, cycle defaultOpcodeMap (stEnv 1 7 [(1, 0xD100), (0x100, 0x8000)] [] [some .ok] []) = .next t) ∧
    (fetched defaultOpcodeMap (stEnv 1 7 [(1, 0xD100), (0x100, 0x8000)] [] [some .ok] [])).operation = .store ∧
    isIo (effOperand (fetched defaultOpcodeMap (stEnv 1 7 [(1, 0xD100), (0x100, 0x8000)] [] [some .ok] [])).operand
      (stEnv 1 7 [(1, 0xD100), (0x100, 0x8000)] [] [some .ok] [])) = true :=
  ⟨⟨⟨_, rfl⟩, by decide⟩, ⟨_, rfl⟩, by decide, by decide⟩

/-- A step that traces and then reads, and a resumed one. -/
theorem witness_TransactionsOfAStep :
    (∃ t, cycle defaultOpcodeMap
        (traced (stEnv 1 7 [(1, 0xC100), (0x100, 0x8000)] [some (.unit 1)] [] [some .ok])) = .next t ∧
      t.env.log.length = 2) ∧
    ∃ t, cycle defaultOpcodeMap
        { traced (stEnv 1 7 [(1, 0xC100), (0x100, 0x8000)] [some (.unit 1)] [] [some .ok]) with wait := .waitIn } =
        .next t ∧ t.env.log.length = 1 :=
  ⟨⟨_, rfl, rfl⟩, ⟨_, rfl, rfl⟩⟩

/-- Both clauses that add a unit: an output STORE and an input LOAD that complete; and those that add none: the same two
answered with a failure. -/
theorem witness_UnitsOfAStep :
    ((∃ t, Completes defaultOpcodeMap (stEnv 1 0xABCD [(1, 0xD100), (0x100, 0x8000)] [] [some .ok] []) t) ∧
      (fetched defaultOpcodeMap (stEnv 1 0xABCD [(1, 0xD100), (0x100, 0x8000)] [] [some .ok] [])).operation = .store ∧
      isIo (effOperand (.ind 0x100) (stEnv 1 0xABCD [(1, 0xD100), (0x100, 0x8000)] [] [some .ok] [])) = true) ∧
    ((∃ t, Completes defaultOpcodeMap (stEnv 1 7 [(1, 0xC100), (0x100, 0xFFFF)] [some (.unit 0xFF)] [] []) t) ∧
      (fetched defaultOpcodeMap (stEnv 1 7 [(1, 0xC100), (0x100, 0xFFFF)] [some (.unit 0xFF)] [] [])).operation =
        .load ∧
      isIo (effOperand (.ind 0x100) (stEnv 1 7 [(1, 0xC100), (0x100, 0xFFFF)] [some (.unit 0xFF)] [] [])) = true) ∧
    (∃ t, cycle defaultOpcodeMap (stEnv 1 7 [(1, 0xD100), (0x100, 0x8000)] [] [some .failure] []) = .next t ∧
      t.status = .faultOut) ∧
    ∃ t, cycle defaultOpcodeMap (stEnv 1 7 [(1, 0xC100), (0x100, 0x8000)] [some .endOfInput] [] []) = .next t ∧
      t.status = .faultIn :=
  ⟨⟨⟨_, rfl, rfl, rfl, rfl⟩, by decide, by decide⟩, ⟨⟨_, rfl, rfl, rfl, rfl⟩, by decide, by decide⟩,
    ⟨_, rfl, rfl⟩, ⟨_, rfl, rfl⟩⟩

/-- The four ends of a run. -/
theorem witness_HowARunEnds :
    (∃ t, cycle defaultOpcodeMap (traced (stEnv 1 7 [] [] [] [some .failure])) = .next t ∧ t.status = .faultTrace) ∧
    (∃ t, cycle defaultOpcodeMap (st 1 7 [(1, 0x6001)]) = .next t ∧ t.status = .halt) ∧
    (∃ t, cycle defaultOpcodeMap (stEnv 1 7 [(1, 0xC100), (0x100, 0x8000)] [some .endOfInput] [] []) = .next t ∧
      t.status = .faultIn) ∧
    ∃ t, cycle defaultOpcodeMap (stEnv 1 7 [(1, 0xD100), (0x100, 0xFFFF)] [] [some .failure] []) = .next t ∧
      t.status = .faultOut :=
  ⟨⟨_, rfl, rfl⟩, ⟨_, rfl, rfl⟩, ⟨_, rfl, rfl⟩, ⟨_, rfl, rfl⟩⟩

/-- V-STORE-4's state. -/
theorem witness_StoredWordRunsNext :
    (st 1 0xABCD [(1, 0x50B8)]).mem.wf ∧ (st 1 0xABCD [(1, 0x50B8)]).status = .run ∧
    (st 1 0xABCD [(1, 0x50B8)]).traceEn = false ∧
    (fetched defaultOpcodeMap (st 1 0xABCD [(1, 0x50B8)])).operation = .store ∧
    isIo (effOperand (fetched defaultOpcodeMap (st 1 0xABCD [(1, 0x50B8)])).operand (st 1 0xABCD [(1, 0x50B8)])) = false ∧
    (effOperand (fetched defaultOpcodeMap (st 1 0xABCD [(1, 0x50B8)])).operand (st 1 0xABCD [(1, 0x50B8)])).toNat % 8192 =
      (candidate (st 1 0xABCD [(1, 0x50B8)])).toNat % 8192 := by decide

/-- A step with tracing and an input transaction, one with an output transaction, and a resumed one. -/
theorem witness_AnsweredStepsComplete :
    ((endlessLoop 0xC100 7 []).status = .run ∧ ¬SelfJump defaultOpcodeMap (endlessLoop 0xC100 7 []) ∧
      (nextTrace (endlessLoop 0xC100 7 [])).1 = some .ok ∧ UsesChannel defaultOpcodeMap (endlessLoop 0xC100 7 []) ∧
      (nextInput (endlessLoop 0xC100 7 [])).1 = some (.unit 0x61)) ∧
    (¬SelfJump defaultOpcodeMap (endlessLoop 0xD100 7 []) ∧
      UsesChannel defaultOpcodeMap (endlessLoop 0xD100 7 []) ∧
      (fetched defaultOpcodeMap (endlessLoop 0xD100 7 [])).operation = .store ∧
      (nextOutput (endlessLoop 0xD100 7 [])).1 = some .ok) ∧
    { endlessLoop 0xC100 7 [] with wait := .waitIn }.wait.traceDue = false := by decide

/-- With LOAD @0x100 in cell 0, a step from CTRL = 0 stays there and changes no cell. -/
theorem readingLoop_step {s t : State} (hc : s.ctrl = 0) (hm : s.mem = (endlessLoop 0xC100 0 []).mem)
    (h : step s = .next t) : t.ctrl = 0 ∧ t.mem = s.mem := by
  have hd : decodeWith defaultOpcodeMap (fetchWord s) = .load (.ind 0x100) := by rw [fetchWord, hc, hm]; decide
  have h0 : candidateOf 0 = 0 := by decide
  have key : ∀ u t : State, u.ctrl = 0 → exec (.load (.ind 0x100)) u = .next t → t.ctrl = 0 ∧ t.mem = u.mem := by
    intro u t hu h
    rcases execLoad_cases (.ind 0x100) u with ⟨_, e⟩ | ⟨_, _, e⟩ | ⟨_, _, _, e⟩ | ⟨_, _, _, _, e⟩ <;> rw [e] at h <;>
      cases h <;> first | exact ⟨hu, rfl⟩ | exact ⟨(congrArg candidateOf hu).trans h0, rfl⟩
  by_cases hr : s.status = .run
  · rcases cycle_run_cases defaultOpcodeMap hr with ⟨_, e⟩ | ⟨_, _, _, e⟩ | ⟨_, _, _, e⟩ | ⟨_, _, _, e⟩ <;>
      rw [step, e] at h
    · exact key s t hc (hd ▸ h)
    · cases h; exact ⟨hc, rfl⟩
    · rw [hd] at h
      have := fun hu => key _ t hu h
      exact this hc
    · cases h; exact ⟨hc, rfl⟩
  · rw [step, cycle_of_ended _ hr] at h
    cases h; exact ⟨hc, rfl⟩

/-- A run of the reading loop is never at a self-jump. -/
theorem readingLoop_no_selfJump {s u : State} (j : Nat) (hc : s.ctrl = 0)
    (hm : s.mem = (endlessLoop 0xC100 0 []).mem) (h : Host.Core.run Sys2Proof.core j s = .next u) :
    ¬SelfJump defaultOpcodeMap u := by
  induction j generalizing s with
  | zero =>
    cases h
    exact fun hs => absurd hs.1 (by rw [fetched, fetchWord, hc, hm]; decide)
  | succ j ih =>
    simp only [Host.Core.run] at h
    split at h
    · next t ht => exact ih (readingLoop_step hc hm ht).1 ((readingLoop_step hc hm ht).2.trans hm) h
    · cases h
    · cases h
/-- A traced run that reads a unit in every step, whose host answers for ever: the premises hold for every number of
steps. -/
theorem witness_AnsweredRunsGoOn (a : Word) (l : List Event) :
    (endlessLoop 0xC100 a l).status = .run ∧ (endlessLoop 0xC100 a l).wait = .none ∧
    (endlessLoop 0xC100 a l).traceEn = true ∧ (∀ n, traceAt (endlessLoop 0xC100 a l) n = some .ok) ∧
    (∀ n, inputAt (endlessLoop 0xC100 a l) n = some (.unit 0x61)) ∧
    (∀ n, outputAt (endlessLoop 0xC100 a l) n = some .ok) ∧
    ∀ j u, Host.Core.run Sys2Proof.core j (endlessLoop 0xC100 a l) = .next u → ¬SelfJump defaultOpcodeMap u :=
  ⟨rfl, rfl, rfl, repeated_answer _ _, repeated_answer _ _, repeated_answer _ _,
    fun j _ h => readingLoop_no_selfJump (s := endlessLoop 0xC100 a l) j rfl rfl h⟩

/-- A traced loop that reads, one that writes, and one that does neither. -/
theorem witness_AnsweredLoopsNeverEnd :
    (endlessLoop 0xC100 7 []).ctrl = 0 ∧ (endlessLoop 0xC100 7 []).status = .run ∧
    (endlessLoop 0xC100 7 []).wait = .none ∧ (endlessLoop 0xC100 7 []).traceEn = true ∧
    (∀ n, traceAt (endlessLoop 0xC100 7 []) n = some .ok) ∧
    (∀ n, inputAt (endlessLoop 0xC100 7 []) n = some (.unit 0x61)) ∧
    (∀ n, outputAt (endlessLoop 0xC100 7 []) n = some .ok) ∧
    (fetched defaultOpcodeMap (endlessLoop 0xC100 7 [])).operation = .load ∧
    UsesChannel defaultOpcodeMap (endlessLoop 0xC100 7 []) ∧
    (fetched defaultOpcodeMap (endlessLoop 0xD100 7 [])).operation = .store ∧
    UsesChannel defaultOpcodeMap (endlessLoop 0xD100 7 []) ∧
    (fetched defaultOpcodeMap (endlessLoop 0x2000 7 [])).operation = .shl :=
  ⟨rfl, rfl, rfl, rfl, repeated_answer _ _, repeated_answer _ _, repeated_answer _ _, by decide⟩

/-- The listed answers, the boundary after them, and the wrap of the round. -/
theorem test_repeated_round :
    [0, 1, 2, 3, 4].map
        (answerAt (fun _ => none) { listed := [some (1 : Byte)], after := .repeats (some 2) [some 3] }) =
      [some 1, some 2, some 3, some 2, some 3] := by decide

theorem witness_EndedRunsStay :
    { st 1 0 [] with status := .halt }.status ≠ .run ∧ { st 1 0 [] with status := .faultTrace }.status ≠ .run := by decide

/-- A host that never answers, for each port; at the input port also a list that answers "not yet". -/
theorem witness_UnansweredTransactionsHoldForEver :
    ((fetched defaultOpcodeMap (stEnv 1 0 [(1, 0xC100), (0x100, 0x8000)] [none] [] [])).operation = .load ∧
      isIo (effOperand (.ind 0x100) (stEnv 1 0 [(1, 0xC100), (0x100, 0x8000)] [none] [] [])) = true ∧
      (stEnv 1 0 [(1, 0xC100), (0x100, 0x8000)] [none] [] []).traceEn = false ∧
      ∀ n, inputAt (stEnv 1 0 [(1, 0xC100), (0x100, 0x8000)] [none] [] []) n = none) ∧
    ((fetched defaultOpcodeMap (st 1 0 [(1, 0xD100), (0x100, 0x8000)])).operation = .store ∧
      isIo (effOperand (.ind 0x100) (st 1 0 [(1, 0xD100), (0x100, 0x8000)])) = true ∧
      ∀ n, outputAt (st 1 0 [(1, 0xD100), (0x100, 0x8000)]) n = none) ∧
    ((traced (st 1 0 [])).traceEn = true ∧ (traced (st 1 0 [])).wait = .none ∧
      ∀ n, traceAt (traced (st 1 0 [])) n = none) :=
  ⟨⟨by decide, by decide, by decide, fun n => by cases n <;> [rfl; exact silent_never_answers _ _]⟩,
    ⟨by decide, by decide, silent_never_answers _⟩, ⟨by decide, by decide, silent_never_answers _⟩⟩

/-- V-JZ-3's state. -/
theorem witness_JzToItselfNeverEnds :
    (st 0x5C 0 [(0x5C, 0x705C)]).status = .run ∧ (st 0x5C 0 [(0x5C, 0x705C)]).traceEn = false ∧
    (st 0x5C 0 [(0x5C, 0x705C)]).wait = .none ∧ (st 0x5C 0 [(0x5C, 0x705C)]).acc = 0 ∧
    (fetched defaultOpcodeMap (st 0x5C 0 [(0x5C, 0x705C)])).operation = .jz ∧
    effOperand (fetched defaultOpcodeMap (st 0x5C 0 [(0x5C, 0x705C)])).operand (st 0x5C 0 [(0x5C, 0x705C)]) =
      (st 0x5C 0 [(0x5C, 0x705C)]).ctrl := by decide

/-- P5's first run: the state after reset itself. -/
theorem witness_CellZeroLoopsForEver :
    State.reset.status = .run ∧ State.reset.traceEn = false ∧ State.reset.ctrl = 0 ∧
    (fetched defaultOpcodeMap State.reset).operation = .and := by decide

/-- A memory of zeros never transfers control, so it gives implicit runs of every length, from every CTRL. -/
theorem implicitRun_exists (n : Nat) (c a : Word) : ∃ t, ImplicitRun defaultOpcodeMap n (st c a []) t := by
  induction n generalizing c a with
  | zero => exact ⟨_, rfl⟩
  | succ n ih =>
    obtain ⟨t, ht⟩ := ih (candidateOf c) 0
    have hw : fetchWord (st c a []) = 0 := rfl
    have hf : fetched defaultOpcodeMap (st c a []) = .and (.imm 0) := by rw [fetched, hw]; decide
    refine ⟨t, st (candidateOf c) 0 [], ⟨rfl, ?_, rfl, rfl⟩, by simp [FallsThrough, hf, Instr.operation], ht⟩
    show exec (fetched defaultOpcodeMap (st c a [])) (st c a []) = .next (st (candidateOf c) 0 [])
    rw [hf]
    simp [exec, execAnd, commit, effOperand, candidate, st, State.reset]

theorem witness_ImplicitRunsFollowTheSequencer : ∃ t, ImplicitRun defaultOpcodeMap (0 + 1) (st 0x01B8 0 []) t :=
  implicitRun_exists _ _ _

/-- The whole cycle and one step less, from a nonzero low byte, and a run from a zero one. -/
theorem witness_ImplicitRunsCloseAfter255 :
    (∃ t, ImplicitRun defaultOpcodeMap (254 + 1) (st 0x0101 0 []) t) ∧
    (∃ t, ImplicitRun defaultOpcodeMap (253 + 1) (st 0x0101 0 []) t) ∧ (st 0x0101 0 []).ctrl.toNat % 256 ≠ 0 ∧
    (∃ t, ImplicitRun defaultOpcodeMap (0 + 1) (st 0x0100 0 []) t) ∧ (st 0x0100 0 []).ctrl.toNat % 256 = 0 :=
  ⟨implicitRun_exists _ _ _, implicitRun_exists _ _ _, by decide, implicitRun_exists _ _ _, by decide⟩

/-- A record answered Ok, a record already sent, and the two ways of not answering. -/
theorem witness_TracedStepMatchesUntraced :
    ((∃ t, cycle defaultOpcodeMap (traced (stEnv 1 7 [(1, 0x2000)] [] [] [some .ok])) = .next t) ∧
      (nextTrace (traced (stEnv 1 7 [(1, 0x2000)] [] [] [some .ok]))).1 = some .ok) ∧
    (∃ t, cycle defaultOpcodeMap { traced (st 1 7 [(1, 0x2000)]) with wait := .waitIn } = .next t) ∧
    Wait.traceDue .waitIn = false ∧
    (∃ t, cycle defaultOpcodeMap (traced (st 1 7 [(1, 0x2000)])) = .next t) ∧
    (nextTrace (traced (st 1 7 [(1, 0x2000)]))).1 = none ∧
    (nextTrace (traced (stEnv 1 7 [(1, 0x2000)] [] [] [none]))).1 = none :=
  ⟨⟨⟨_, rfl⟩, rfl⟩, ⟨_, rfl⟩, rfl, ⟨_, rfl⟩, rfl, rfl⟩

theorem witness_TracedRunMatchesUntraced :
    (∀ n, n < 1 → traceAt (traced (stEnv 1 7 [(1, 0x2000)] [] [] [some .ok])) n = some .ok) ∧
    (∃ t, Host.Core.run Sys2Proof.core 1 (traced (stEnv 1 7 [(1, 0x2000)] [] [] [some .ok])) = .next t) ∧
    ∀ n, traceAt (endlessLoop 0xC100 7 []) n = some .ok :=
  ⟨by decide, ⟨_, rfl⟩, repeated_answer _ _⟩

theorem witness_ResetTakesItsInputs : (st 1 7 [(5, 1)]).mem.wf := by decide

/-- The last cell, of the largest and of the smallest memory. -/
theorem witness_LoaderImage : 65535 ≤ (0xFFFF : Word).toNat ∧ 0 ≤ (0 : Word).toNat := by decide

theorem witness_OutputsOfTheCore :
    (st 1 7 []).status = .run ∧ { st 1 7 [] with status := .halt }.status ≠ .run := by decide

/-- A storing step from a state with the invariant, and a step held on the input channel. -/
theorem witness_StepKeepsInvariant :
    (State.Inv defaultOpcodeMap (st 1 0xABCD [(1, 0x5005)]) ∧
      ∃ t, cycle defaultOpcodeMap (st 1 0xABCD [(1, 0x5005)]) = .next t ∧ t.mem.cells = [(1, 0x5005), (5, 0xABCD)]) ∧
    State.Inv defaultOpcodeMap { st 1 0 [(1, 0xC100), (0x100, 0x8000)] with wait := .waitIn } ∧
    ∃ t, cycle defaultOpcodeMap { st 1 0 [(1, 0xC100), (0x100, 0x8000)] with wait := .waitIn } = .next t ∧
      t.wait = .waitIn :=
  ⟨⟨by decide, _, rfl, by decide⟩, by decide, _, rfl, rfl⟩

theorem witness_ResetMeetsInvariant : ({ st 1 7 [(5, 1)] with wait := .waitOut }).mem.wf := by decide

end Sys2Proof.Tests
end

section
/-! PROOFS. What one call of the step in RUN can do to the architectural state, said once: it completes, holds or ends
(40_sequencer_and_step.md R90). The statements about every step are case splits on it. -/

namespace Sys2Proof.Machine

/-- The operations that write ACC (10_state.md R21). -/
abbrev WritesAcc (op : Operation) : Prop :=
  op = .and ∨ op = .xor ∨ op = .shl ∨ op = .shr ∨ op = .load

/-- CTRL after `i` completes (R95). -/
def controlAfter (i : Instr) (s : State) : Word :=
  if i.operation = .jmp ∨ i.operation = .jz ∧ s.acc = 0 then effOperand i.operand s else candidate s

/-- The transactions the step of `i` at `s` can be held on (R172 to R174). -/
def MayHold (i : Instr) (s : State) : Wait → Prop
  | .none => False
  | .waitTrace => s.traceEn = true
  | .waitIn => i.operation = .load ∧ isIo (effOperand i.operand s) = true
  | .waitOut => i.operation = .store ∧ isIo (effOperand i.operand s) = true

/-- The ways the step of `i` at `s` can end the run (R142, R161 to R165). -/
def MayEnd (i : Instr) (s : State) : Status → Prop
  | .run => False
  | .halt => i.operation = .jmp ∧ effOperand i.operand s = s.ctrl
  | .faultIn => i.operation = .load ∧ isIo (effOperand i.operand s) = true ∧
      ((nextInput s).1 = some .endOfInput ∨ (nextInput s).1 = some .failure)
  | .faultOut => i.operation = .store ∧ isIo (effOperand i.operand s) = true ∧ (nextOutput s).1 = some .failure
  | .faultTrace => s.traceEn = true ∧ (nextTrace s).1 = some .failure

/-- The states one call of the step of `i` can leave from `s`: a completed step's, with the only memory a step may
commit; a held one's; or an ended one's. What the host has left to answer and the log are not described. -/
inductive StepEffect (i : Instr) (s : State) : State → Prop
  | completes (a : Word) (m : Memory) (e : Env) (ha : a = s.acc ∨ WritesAcc i.operation)
      (hm : m = s.mem ∨ i.operation = .store ∧ isIo (effOperand i.operand s) = false ∧
        m = memWrite s.mem (effOperand i.operand s).toNat s.acc) :
      StepEffect i s { s with acc := a, ctrl := controlAfter i s, mem := m, wait := .none, env := e }
  | holds (w : Wait) (e : Env) (hw : MayHold i s w) : StepEffect i s { s with wait := w, env := e }
  | ends (k : Status) (e : Env) (hk : MayEnd i s k) :
      StepEffect i s { s with status := k, wait := .none, env := e }

/-- `s` with another WAIT, trace port and log: all that the trace part of a step can change before the dispatch (R87),
and nothing that the dispatch reads. -/
def pastTrace (w : Wait) (ta : Answers Ack) (l : List Event) (s : State) : State :=
  { s with wait := w, env := { s.env with traceAnswers := ta, log := l } }

/-- What JMP does (R140, R142). -/
theorem exec_jmp (o : Operand) (s : State) :
    exec (.jmp o) s =
      .next (if effOperand o s = s.ctrl then { s with status := .halt, wait := .none }
        else { s with ctrl := effOperand o s, wait := .none }) := by
  by_cases h : effOperand o s = s.ctrl <;> simp [exec, execJmp, isSelfJump, h, haltRun, commit]

/-- What JZ does (R141). -/
theorem exec_jz (o : Operand) (s : State) :
    exec (.jz o) s =
      .next { s with ctrl := if s.acc = 0 then effOperand o s else candidate s, wait := .none } := by
  simp [exec, execJz, accIsZero, commit]

section
variable {s t : State} {w : Wait} {ta : Answers Ack} {l : List Event}

/-- An ALU step completes with its result in ACC and memory as it was (R100). -/
theorem StepEffect.of_commit_alu {i : Instr} (a : Word)
    (h : i.operation = .and ∨ i.operation = .xor ∨ i.operation = .shl ∨ i.operation = .shr) :
    StepEffect i s (commit a (candidate s) s.mem (pastTrace w ta l s)) := by
  have hc : controlAfter i s = candidate s := by
    rcases h with h | h | h | h <;> simp [controlAfter, h]
  have ha : WritesAcc i.operation := by tauto
  exact hc ▸ .completes a s.mem _ (.inr ha) (.inl rfl)

/-- LOAD completes with ACC written, holds on the input channel, or ends with FAULT_IN. -/
theorem StepEffect.of_exec_load {o : Operand} (h : exec (.load o) (pastTrace w ta l s) = .next t) :
    StepEffect (.load o) s t := by
  have ha : WritesAcc (Instr.load o).operation := .inr (.inr (.inr (.inr rfl)))
  rcases execLoad_cases o (pastTrace w ta l s) with ⟨_, e⟩ | ⟨hio, _, e⟩ | ⟨_, _, _, e⟩ |
      ⟨hio, x, rfl | rfl, hn, e⟩ <;>
    cases e.symm.trans h
  · exact .completes _ s.mem _ (.inr ha) (.inl rfl)
  · exact .holds .waitIn _ ⟨rfl, hio⟩
  · exact .completes _ s.mem _ (.inr ha) (.inl rfl)
  · exact .ends .faultIn _ ⟨rfl, hio, .inl hn⟩
  · exact .ends .faultIn _ ⟨rfl, hio, .inr hn⟩

/-- STORE completes, with memory written on the memory half only, holds on the output channel, or ends with
FAULT_OUT. -/
theorem StepEffect.of_exec_store {o : Operand} (h : exec (.store o) (pastTrace w ta l s) = .next t) :
    StepEffect (.store o) s t := by
  rcases execStore_cases o (pastTrace w ta l s) with ⟨hio, e⟩ | ⟨hio, _, e⟩ | ⟨_, _, e⟩ | ⟨hio, hn, e⟩ <;>
    cases e.symm.trans h
  · exact .completes s.acc _ _ (.inl rfl) (.inr ⟨rfl, hio, rfl⟩)
  · exact .holds .waitOut _ ⟨rfl, hio⟩
  · exact .completes s.acc s.mem _ (.inl rfl) (.inl rfl)
  · exact .ends .faultOut _ ⟨rfl, hio, hn⟩

/-- JMP halts at its own address and else completes with ACC and memory as they were. -/
theorem StepEffect.of_exec_jmp {o : Operand} (h : exec (.jmp o) (pastTrace w ta l s) = .next t) :
    StepEffect (.jmp o) s t := by
  cases (exec_jmp o _).symm.trans h
  split
  · next he => exact .ends .halt _ ⟨rfl, he⟩
  · exact .completes s.acc s.mem _ (.inl rfl) (.inl rfl)

/-- JZ completes with ACC and memory as they were. -/
theorem StepEffect.of_exec_jz {o : Operand} (h : exec (.jz o) (pastTrace w ta l s) = .next t) :
    StepEffect (.jz o) s t := by
  have hc : controlAfter (.jz o) s = if s.acc = 0 then effOperand o s else candidate s := by
    simp [controlAfter, Instr.operation, Instr.operand]
  cases (exec_jz o _).symm.trans h
  exact hc ▸ StepEffect.completes s.acc s.mem _ (.inl rfl) (.inl rfl)

/-- The dispatch (R88) has no other effect than these. -/
theorem StepEffect.of_exec {i : Instr} (h : exec i (pastTrace w ta l s) = .next t) : StepEffect i s t := by
  cases i with
  | and o => cases h; exact .of_commit_alu _ (.inl rfl)
  | xor o => cases h; exact .of_commit_alu _ (.inr (.inl rfl))
  | shl o => cases h; exact .of_commit_alu _ (.inr (.inr (.inl rfl)))
  | shr o => cases h; exact .of_commit_alu _ (.inr (.inr (.inr rfl)))
  | load o => exact .of_exec_load h
  | store o => exact .of_exec_store h
  | jmp o => exact .of_exec_jmp h
  | jz o => exact .of_exec_jz h

/-- A call of the step in RUN has no other effect than these (R83 to R91). -/
theorem StepEffect.of_cycle {map : OpcodeMap} (hr : s.status = .run) (h : cycle map s = .next t) :
    StepEffect (fetched map s) s t := by
  rcases cycle_run_cases map hr with ⟨_, e⟩ | ⟨hen, _, _, e⟩ | ⟨_, _, _, e⟩ | ⟨hen, _, hn, e⟩ <;> rw [e] at h
  · exact .of_exec (w := s.wait) (ta := s.env.traceAnswers) (l := s.env.log) h
  · cases h; exact .holds .waitTrace _ hen
  · exact .of_exec h
  · cases h; exact .ends .faultTrace _ ⟨hen, hn⟩

end

/-- A call of the step leaves an ended state as it is (R35) and has one of the effects above on any other. -/
theorem eq_or_stepEffect_of_cycle {map : OpcodeMap} {s t : State} (h : cycle map s = .next t) :
    s.status ≠ .run ∧ t = s ∨ s.status = .run ∧ StepEffect (fetched map s) s t := by
  by_cases hr : s.status = .run
  · exact .inr ⟨hr, .of_cycle hr h⟩
  · cases (cycle_of_ended map hr).symm.trans h
    exact .inl ⟨hr, rfl⟩

end Sys2Proof.Machine
end

section
/-! PROOFS. The statements about the state and its invariant (10_state.md). -/

namespace Sys2Proof.Machine

/-! ### The invariant -/

/-- A core that is held on nothing meets `HoldOk` (R30). -/
theorem holdOk_of_wait_none (map : OpcodeMap) {s : State} (h : s.wait = .none) : HoldOk map s := by
  simp [HoldOk, h]

/-- A hold in RUN on a transaction the step may be held on keeps the invariant: the step begins again at the same
instruction with the same operand. -/
theorem State.Inv.hold {map : OpcodeMap} {s : State} {w : Wait} (e : Env) (hs : s.mem.wf) (hr : s.status = .run)
    (hw : MayHold (fetched map s) s w) : State.Inv map { s with wait := w, env := e } := by
  refine ⟨hs, fun _ => hr, ?_, ?_, ?_⟩ <;> rintro rfl <;> exact hw

/-- Settles O53: a completed or ended step is held on nothing, a STORE keeps memory canonical, and a held step waits for
its own transaction. -/
theorem stepKeepsInvariant : Obligations.StepKeepsInvariant := by
  intro map s t hs h
  rcases eq_or_stepEffect_of_cycle h with ⟨-, rfl⟩ | ⟨hr, he⟩
  · exact hs
  · cases he with
    | completes a m e ha hm =>
      have hwf : m.wf := by
        rcases hm with rfl | ⟨-, -, rfl⟩
        · exact hs.1
        · exact hs.1.memWrite _ _
      exact ⟨hwf, holdOk_of_wait_none map rfl⟩
    | holds w e hw => exact .hold e hs.1 hr hw
    | ends k e hk => exact ⟨hs.1, holdOk_of_wait_none map rfl⟩

/-- Settles O54: after a reset the core is held on nothing, and the preload writes keep memory canonical. -/
theorem resetMeetsInvariant : Obligations.ResetMeetsInvariant :=
  ⟨fun map => ⟨State.reset_mem_wf, holdOk_of_wait_none map rfl⟩,
    fun map _ _ h => ⟨h.preloadCells _, holdOk_of_wait_none map rfl⟩⟩

/-! ### What every step keeps, and how a run ends -/

/-- Settles O33: only a completed step changes ACC, and only where the operation writes it. -/
theorem accumulatorWriters : Obligations.AccumulatorWriters := by
  intro map s t h hne
  rcases eq_or_stepEffect_of_cycle h with ⟨-, rfl⟩ | ⟨-, he⟩
  · exact absurd rfl hne
  · cases he with
    | completes a m e ha hm => exact ha.resolve_left hne
    | holds w e hw => exact absurd rfl hne
    | ends k e hk => exact absurd rfl hne

/-- Settles O36: no effect names TRACE_EN, and a memory write keeps the number of cells. -/
theorem configurationIsConstant : Obligations.ConfigurationIsConstant := by
  intro map s t h
  rcases eq_or_stepEffect_of_cycle h with ⟨-, rfl⟩ | ⟨-, he⟩
  · exact ⟨rfl, rfl⟩
  · cases he with
    | completes a m e ha hm =>
      refine ⟨rfl, ?_⟩
      rcases hm with rfl | ⟨-, -, rfl⟩
      · rfl
      · exact memWrite_size _ _ _
    | holds w e hw => exact ⟨rfl, rfl⟩
    | ends k e hk => exact ⟨rfl, rfl⟩

/-- Settles O39: a completed or held step is still in RUN, and an ended one ended in one of the four ways. -/
theorem howARunEnds : Obligations.HowARunEnds := by
  intro map s t hr h hne
  cases StepEffect.of_cycle hr h with
  | completes a m e ha hm => exact absurd hr hne
  | holds w e hw => exact absurd hr hne
  | ends k e hk =>
    cases k with
    | run => exact absurd rfl hne
    | faultTrace => exact .inl ⟨rfl, hk⟩
    | halt => exact .inr (.inl ⟨rfl, hk⟩)
    | faultIn => exact .inr (.inr (.inl ⟨rfl, hk⟩))
    | faultOut => exact .inr (.inr (.inr ⟨rfl, hk⟩))

/-! ### JMP and LOAD do not read ACC -/

@[simp] theorem effOperand_withAcc (o : Operand) (s : State) (a : Word) :
    effOperand o { s with acc := a } = effOperand o s := effOperand_congr o rfl

@[simp] theorem nextInput_withAcc (s : State) (a : Word) : nextInput { s with acc := a } = nextInput s := rfl

@[simp] theorem candidate_withAcc (s : State) (a : Word) : candidate { s with acc := a } = candidate s := rfl

/-- JMP carries ACC through (R140). -/
theorem exec_jmp_withAcc {o : Operand} {s t : State} (a : Word) (h : exec (.jmp o) s = .next t) :
    exec (.jmp o) { s with acc := a } = .next { t with acc := a } := by
  cases (exec_jmp o s).symm.trans h
  rw [exec_jmp, effOperand_withAcc]
  split <;> rfl

/-- In RUN, a LOAD that completes writes ACC whatever it was, and one that holds or faults carries it through (R120). -/
theorem exec_load_withAcc {o : Operand} {s t : State} (a : Word) (hr : s.status = .run)
    (h : exec (.load o) s = .next t) :
    exec (.load o) { s with acc := a } =
      .next { t with acc := if t.status = .run ∧ t.wait = .none then t.acc else a } := by
  have other := execLoad_cases o { s with acc := a }
  simp only [effOperand_withAcc, nextInput_withAcc, candidate_withAcc] at other
  rcases execLoad_cases o s with ⟨hio, e⟩ | ⟨hio, hn, e⟩ | ⟨hio, u, hn, e⟩ | ⟨hio, x, rfl | rfl, hn, e⟩ <;>
    cases e.symm.trans h
  · simpa [hio, hr] using other
  · simpa [hio, hn] using other
  · simpa [hio, hn, hr] using other
  · simpa [hio, hn] using other
  · simpa [hio, hn] using other

/-- Settles O28: both read memory, CTRL and the host's answers, none of which ACC changes. -/
theorem jmpAndLoadIgnoreAcc : Obligations.JmpAndLoadIgnoreAcc :=
  fun _ _ _ a hr => ⟨exec_jmp_withAcc a, exec_load_withAcc a hr⟩

/-! ### The reset state and the outputs -/

/-- A host that has fallen silent answers no call (93_implementation_defined.md I3). -/
theorem answerAt_never {α : Type} (draw : Nat → Option α) (n : Nat) :
    answerAt draw { listed := [], after := .never } n = none := by
  induction n with
  | zero => rfl
  | succ n ih => rw [answerAt_succ, nextAnswer_never, ih]

/-- Settles O49: the fields by definition, and no call answered by the three silent ports. -/
theorem resetState : Obligations.ResetState :=
  ⟨rfl, rfl, rfl, fun _ => rfl, rfl, rfl, rfl, rfl, answerAt_never _, answerAt_never _, answerAt_never _⟩

/-- A read indexes modulo N (R41). -/
@[simp] theorem memRead_mod_size (m : Memory) (a : Nat) : memRead m (a % m.size) = memRead m a := by
  rw [memRead, Nat.mod_mod, memRead]

/-- Settles O52: the port and the result both test STATUS, and the port's read is modulo N already. -/
theorem outputsOfTheCore : Obligations.OutputsOfTheCore := by
  refine ⟨rfl, rfl, rfl, rfl, rfl, fun s a => ?_⟩
  by_cases hr : s.status = .run <;> simp [readBack, runResult, hr]

end Sys2Proof.Machine
end

section
/-! PROOFS. The statements about memory and its routing (20_memory.md R41 to R47, R56). -/

namespace Sys2Proof.Machine

/-! ### Reading and writing modulo N -/

/-- Addresses equal modulo N read alike (R41). -/
theorem memRead_congr {m : Memory} {a b : Nat} (h : a % m.size = b % m.size) : memRead m a = memRead m b := by
  rw [memRead, h, memRead]

/-- Addresses equal modulo N write alike (R41). -/
theorem memWrite_congr {m : Memory} {a b : Nat} (v : Word) (h : a % m.size = b % m.size) :
    memWrite m a v = memWrite m b v := by
  rw [memWrite, h, memWrite]

/-- A write leaves every cell but the one it names alone, in any memory. -/
theorem memRead_memWrite_ne {m : Memory} {a b : Nat} (v : Word) (h : b % m.size ≠ a % m.size) :
    memRead (memWrite m a v) b = memRead m b :=
  cellAt_setCell_ne m.cells v h

/-- In a canonical memory the written word is read back at every address of its cell. -/
theorem memRead_memWrite_eq {m : Memory} {a b : Nat} (hm : m.wf) (v : Word) (h : b % m.size = a % m.size) :
    memRead (memWrite m a v) b = v := by
  rw [memRead_congr (m := memWrite m a v) h]
  exact cellAt_setCell_self hm.1 _ v

/-- Settles O9: the read after the write is at the written cell or at another. -/
theorem memoryReadsAndWritesModuloN : Obligations.MemoryReadsAndWritesModuloN := by
  intro m a b v hm
  refine ⟨(memRead_mod_size m a).symm, ?_, memWrite_size m a v⟩
  split
  · next h => exact memRead_memWrite_eq hm v h
  · next h => exact memRead_memWrite_ne v h

/-- The low 13 bits of an address are the address modulo 8192. -/
theorem toNat_and_low13 (a : Word) : (a &&& 0x1FFF).toNat = a.toNat % 8192 := by
  rw [BitVec.toNat_and]
  exact Nat.and_two_pow_sub_one_eq_mod a.toNat 13

/-- Settles O10: both pairs of addresses are equal modulo N. -/
theorem addressesAlias : Obligations.AddressesAlias := by
  refine ⟨fun m a v => ?_, fun m a v hN => ?_⟩
  · have h : (a + m.size) % m.size = a % m.size := Nat.add_mod_right a m.size
    exact ⟨memRead_congr h, memWrite_congr v h⟩
  · have h : a.toNat % m.size = (a &&& 0x1FFF).toNat % m.size := by
      rw [hN, toNat_and_low13, Nat.mod_mod]
    exact ⟨memRead_congr h, memWrite_congr v h⟩

/-! ### The canonical form -/

/-- In a rising list without zeros the listed cells are the nonzero ones. -/
theorem Rising.mem_iff {l : List (Nat × Word)} (hl : Rising l) (h0 : ∀ c ∈ l, c.2 ≠ 0) (i : Nat) (v : Word) :
    (i, v) ∈ l ↔ v ≠ 0 ∧ cellAt l i = v := by
  induction l with
  | nil => simpa [cellAt] using fun hv => Ne.symm hv
  | cons c l ih =>
    obtain ⟨j, x⟩ := c
    have ih := ih hl.tail fun d hd => h0 d (List.mem_cons_of_mem _ hd)
    by_cases hij : j = i
    · subst hij
      have hx : x ≠ 0 := h0 (j, x) List.mem_cons_self
      have hnot : (j, v) ∉ l := fun hd => Nat.lt_irrefl j (hl.head_lt (j, v) hd)
      simp only [List.mem_cons, Prod.mk.injEq, true_and, hnot, or_false, cellAt, if_true]
      exact ⟨fun h => ⟨h ▸ hx, h.symm⟩, fun h => h.2.symm⟩
    · simp [cellAt, hij, Ne.symm hij, ih]

/-- The cells a canonical memory lists are determined by what it reads. -/
theorem Memory.wf.mem_cells_iff {m : Memory} (hm : m.wf) (i : Nat) (v : Word) :
    (i, v) ∈ m.cells ↔ i < m.size ∧ v ≠ 0 ∧ memRead m i = v := by
  have hmem := Rising.mem_iff hm.1 (fun c hc => (hm.2 c hc).2) i v
  constructor
  · intro h
    have hi : i < m.size := (hm.2 _ h).1
    exact ⟨hi, by rwa [memRead, Nat.mod_eq_of_lt hi, ← hmem]⟩
  · rintro ⟨hi, h⟩
    rwa [memRead, Nat.mod_eq_of_lt hi, ← hmem] at h

/-- Rising lists with the same cells are equal. -/
theorem Rising.eq_of_mem_iff {l l' : List (Nat × Word)} (hl : Rising l) (hl' : Rising l')
    (h : ∀ c, c ∈ l ↔ c ∈ l') : l = l' := by
  have : Std.Irrefl fun c d : Nat × Word => c.1 < d.1 := ⟨fun c => Nat.lt_irrefl c.1⟩
  exact (List.pairwise_map.mp hl).eq_of_mem_iff (List.pairwise_map.mp hl') h

/-- Settles O11: both memories list the nonzero cells they read, in rising order. -/
theorem canonicalMemoriesEqual : Obligations.CanonicalMemoriesEqual := by
  intro m m' hm hm' hlast hread
  have hsize : m.size = m'.size := by rw [Memory.size, hlast, Memory.size]
  have hcells : m.cells = m'.cells := Rising.eq_of_mem_iff hm.1 hm'.1 fun c => by
    rw [hm.mem_cells_iff, hm'.mem_cells_iff, hsize, hread]
  cases m
  cases m'
  simp_all

/-! ### What a step writes and which channel it touches -/

/-- A call of the step leaves memory as it was, or is a STORE on the memory half and writes ACC (R45, R121). -/
theorem mem_of_cycle {map : OpcodeMap} {s t : State} (h : cycle map s = .next t) :
    t.mem = s.mem ∨
      (fetched map s).operation = .store ∧ isIo (effOperand (fetched map s).operand s) = false ∧
      t.mem = memWrite s.mem (effOperand (fetched map s).operand s).toNat s.acc := by
  rcases eq_or_stepEffect_of_cycle h with ⟨-, rfl⟩ | ⟨-, he⟩
  · exact .inl rfl
  · cases he with
    | completes a m e ha hm => exact hm
    | holds w e hw => exact .inl rfl
    | ends k e hk => exact .inl rfl

/-- Settles O32: a write changes no cell but its own. -/
theorem onlyStoreWritesMemory : Obligations.OnlyStoreWritesMemory := by
  intro map s t h
  refine ⟨mem_of_cycle h, fun b _ hb => ?_⟩
  rcases mem_of_cycle h with hm | ⟨-, -, hm⟩ <;> rw [hm]
  exact memRead_memWrite_ne s.acc hb

/-- Without tracing a step in RUN is the dispatch alone (R87, R88). -/
theorem cycle_of_untraced (map : OpcodeMap) {s : State} (hr : s.status = .run) (hte : s.traceEn = false) :
    cycle map s = exec (fetched map s) s := by
  rcases cycle_run_cases map hr with ⟨-, e⟩ | ⟨hen, -⟩ | ⟨hen, -⟩ | ⟨hen, -⟩
  · exact e
  all_goals simp [hte] at hen

/-- LOAD on the memory half reads a cell (R43, R120). -/
theorem exec_load_of_memory {o : Operand} {s : State} (h : isIo (effOperand o s) = false) :
    exec (.load o) s =
      .next { s with acc := memRead s.mem (effOperand o s).toNat, ctrl := candidate s, wait := .none } := by
  simpa [h] using execLoad_cases o s

/-- STORE on the memory half commits the written memory (R44, R121). -/
theorem exec_store_of_memory {o : Operand} {s : State} (h : isIo (effOperand o s) = false) :
    exec (.store o) s =
      .next (commit s.acc (candidate s) (memWrite s.mem (effOperand o s).toNat s.acc) s) := by
  simpa [h, commit] using execStore_cases o s

/-- An instruction that is no LOAD or STORE on the I/O half leaves the host's side alone and holds on nothing (R45). -/
theorem env_wait_of_exec {i : Instr} {s t : State}
    (hi : i.operation ≠ .load ∧ i.operation ≠ .store ∨ isIo (effOperand i.operand s) = false)
    (h : exec i s = .next t) : t.env = s.env ∧ t.wait = .none := by
  cases i with
  | and o => cases h; exact ⟨rfl, rfl⟩
  | xor o => cases h; exact ⟨rfl, rfl⟩
  | shl o => cases h; exact ⟨rfl, rfl⟩
  | shr o => cases h; exact ⟨rfl, rfl⟩
  | load o =>
    have hio : isIo (effOperand o s) = false := hi.resolve_left fun hne => hne.1 rfl
    cases (exec_load_of_memory hio).symm.trans h
    exact ⟨rfl, rfl⟩
  | store o =>
    have hio : isIo (effOperand o s) = false := hi.resolve_left fun hne => hne.2 rfl
    cases (exec_store_of_memory hio).symm.trans h
    exact ⟨rfl, rfl⟩
  | jmp o =>
    cases (exec_jmp o s).symm.trans h
    split <;> exact ⟨rfl, rfl⟩
  | jz o =>
    cases (exec_jz o s).symm.trans h
    exact ⟨rfl, rfl⟩

/-- Settles O37: without tracing the step is the dispatch alone, and memory is written on the memory half only. -/
theorem channelsOnlyOnTheIoHalf : Obligations.ChannelsOnlyOnTheIoHalf := by
  intro map s t hr hte h
  refine ⟨fun hi => env_wait_of_exec hi ((cycle_of_untraced map hr hte).symm.trans h), fun _ hio => ?_⟩
  rcases mem_of_cycle h with hm | ⟨-, hmem, -⟩
  · exact hm
  · exact absurd (hio.symm.trans hmem) (by decide)

/-! ### A stored instruction -/

/-- Without tracing a step in RUN runs the fetched word's instruction under the default assignment. -/
theorem step_of_untraced {s : State} (hr : s.status = .run) (hte : s.traceEn = false) :
    step s = exec (decode (fetchWord s)) s :=
  cycle_of_untraced defaultOpcodeMap hr hte

/-- An instruction whose operation is STORE is the STORE of its operand. -/
theorem eq_store_of_operation {i : Instr} (h : i.operation = .store) : i = .store i.operand := by
  cases i with
  | store o => rfl
  | _ => cases h

/-- Settles O40: the STORE leaves CTRL at the candidate, whose cell then reads ACC. -/
theorem storedWordRunsNext : Obligations.StoredWordRunsNext := by
  intro s hm hr hte hop hio hcell
  have hfetched : decode (fetchWord s) = .store (fetched defaultOpcodeMap s).operand := eq_store_of_operation hop
  generalize (fetched defaultOpcodeMap s).operand = o at hio hcell hfetched
  have hstep : step s =
      .next (commit s.acc (candidate s) (memWrite s.mem (effOperand o s).toNat s.acc) s) := by
    rw [step_of_untraced hr hte, hfetched, exec_store_of_memory hio]
  have hfetch : memRead (memWrite s.mem (effOperand o s).toNat s.acc) (candidate s).toNat = s.acc :=
    memRead_memWrite_eq hm s.acc hcell.symm
  refine ⟨_, hstep, rfl, ?_⟩
  rw [step_of_untraced (s := commit _ _ _ _) hr hte, fetchWord, commit_mem, commit_ctrl, hfetch]

end Sys2Proof.Machine
end

section
/-! PROOFS. The statements about the encoding, the operand forms and the totality of the step (30_encoding.md). -/

namespace Sys2Proof

/-! ### Instructions and operands as pairs of fields -/

@[simp] theorem Instr.operation_make (op : Operation) (o : Operand) : (Instr.make op o).operation = op := by
  cases op <;> rfl

@[simp] theorem Instr.operand_make (op : Operation) (o : Operand) : (Instr.make op o).operand = o := by
  cases op <;> rfl

@[simp] theorem Instr.make_operation_operand (i : Instr) : Instr.make i.operation i.operand = i := by
  cases i <;> rfl

@[simp] theorem operandOf_mode (w : Word) : (operandOf w).mode = modeBit w := by
  cases h : modeBit w <;> simp [operandOf, h, Operand.mode]

@[simp] theorem operandOf_field (w : Word) : (operandOf w).field = operandField w := by
  cases h : modeBit w <;> simp [operandOf, h, Operand.field]

/-- A word with the mode bit and the field of an operand has that operand (R61, R62). -/
theorem operandOf_eq {w : Word} {o : Operand} (hm : modeBit w = o.mode) (hf : operandField w = o.field) :
    operandOf w = o := by
  cases o <;> simp_all [operandOf, Operand.mode, Operand.field]

@[simp] theorem decodeWith_operation (map : OpcodeMap) (w : Word) :
    (decodeWith map w).operation = map (opField w) :=
  Instr.operation_make _ _

@[simp] theorem decodeWith_operand (map : OpcodeMap) (w : Word) : (decodeWith map w).operand = operandOf w :=
  Instr.operand_make _ _

/-! ### The round trips -/

/-- A word is its mode bit, its opcode field and its operand field, put together: they leave no bit out (R61). -/
theorem append_fields (w : Word) : BitVec.ofBool (modeBit w) ++ (opField w ++ operandField w) = w := by
  refine BitVec.eq_of_getLsbD_eq fun i hi => (Laws.bit_of_append _ _ _ i).trans ?_
  split
  · split
    · next hk => simp [operandField, hk]
    · next hop hk =>
      have hpos : 12 + (i - 12) = i := by omega
      have hlt : i - 12 < 3 := by omega
      simp [opField, hpos, hlt]
  · next hm =>
    obtain rfl : i = 15 := by omega
    simp [modeBit]

/-- The fields of an encoded instruction are the instruction's own, whichever it is (R61, R64). -/
theorem encodeFields (i : Instr) : Laws.EncodeFields.Statement i :=
  fun _ => Laws.fields_of_append _ _ _

/-- Settles O1: the fields of the encoded word are the instruction's own, and the map undoes its inverse. -/
theorem decodeOfEncode : Obligations.DecodeOfEncode := by
  intro map i
  obtain ⟨hm, hop, hk⟩ := encodeFields i map
  rw [decodeWith, hop, operandOf_eq hm hk, Equiv.apply_symm_apply, Instr.make_operation_operand]

/-- Settles O2: the decoded instruction carries the three fields of the word, and these make up the word. -/
theorem encodeOfDecode : Obligations.EncodeOfDecode := by
  intro map w
  rw [encodeWith, decodeWith_operation, decodeWith_operand, operandOf_mode, operandOf_field,
    Equiv.symm_apply_apply, append_fields]

/-- Decoding and encoding are inverse to each other (R61, R65). -/
theorem decode_eq_iff (w : Word) (i : Instr) : decode w = i ↔ w = encode i :=
  ⟨fun h => h ▸ (encodeOfDecode defaultOpcodeMap w).symm, fun h => h ▸ decodeOfEncode defaultOpcodeMap i⟩

/-! ### The fields by arithmetic and by mask -/

/-- The mode bit is set in the upper half of the words. -/
theorem modeBit_eq_decide (w : Word) : modeBit w = decide (32768 ≤ w.toNat) :=
  BitVec.msb_eq_decide w

theorem opField_eq_ofNat (w : Word) : opField w = BitVec.ofNat 3 (w.toNat / 4096) := by
  apply BitVec.eq_of_toNat_eq
  simp [opField, Nat.shiftRight_eq_div_pow]

theorem operandField_eq_ofNat (w : Word) : operandField w = BitVec.ofNat 12 w.toNat := by
  apply BitVec.eq_of_toNat_eq
  simp [operandField]

/-- Settles O3: the operation is the map's value at the opcode field, and the mode bit selects the operand form. -/
theorem fieldsOfTheWord : Obligations.FieldsOfTheWord := by
  intro map w
  refine ⟨by rw [decodeWith_operation, opField_eq_ofNat], ?_⟩
  rw [decodeWith_operand, operandOf, modeBit_eq_decide, operandField_eq_ofNat]
  by_cases h : w.toNat < 32768
  · rw [if_pos h, if_neg (by simpa using h)]
  · rw [if_neg h, if_pos (by simpa using h)]

/-- The word whose bits 14 to 12 are `c` and whose other bits are 0. -/
def opWord (c : BitVec 3) : Word := c.setWidth 16 <<< 12

/-- The mask of R64 has the three bits of the opcode field. -/
theorem getLsbD_opMask {i : Nat} (hi : i < 16) : (0x7000 : Word).getLsbD i = decide (12 ≤ i ∧ i < 15) := by
  revert i
  decide

/-- Masking with 0x7000 keeps the opcode field alone. -/
theorem and_opMask (w : Word) : w &&& 0x7000 = opWord (opField w) := by
  refine BitVec.eq_of_getLsbD_eq fun i hi => ?_
  rw [BitVec.getLsbD_and, getLsbD_opMask hi]
  by_cases h : 12 ≤ i
  · have hpos : 12 + (i - 12) = i := by omega
    have hlt : i - 12 < 3 ↔ i < 15 := by omega
    have hn : ¬ i < 12 := by omega
    simp [opWord, opField, hi, h, hn, hpos, hlt, Bool.and_comm]
  · simp [opWord, h, Nat.lt_of_not_le h]

theorem opWord_injective : Function.Injective opWord := by
  unfold Function.Injective
  decide

/-- The match and mask test for an operation under the default assignment (R64, decision D1). -/
theorem decode_operation_iff (w : Word) (op : Operation) :
    (decode w).operation = op ↔ w &&& 0x7000 = opWord (defaultOpcodeMap.symm op) := by
  rw [decode, decodeWith_operation, ← Equiv.eq_symm_apply, and_opMask, opWord_injective.eq_iff]

/-- Settles O4: one match and mask test for each operation. -/
theorem defaultOpcodeTable : Obligations.DefaultOpcodeTable := fun w =>
  ⟨decode_operation_iff w .and, decode_operation_iff w .xor, decode_operation_iff w .shl,
    decode_operation_iff w .shr, decode_operation_iff w .load, decode_operation_iff w .store,
    decode_operation_iff w .jmp, decode_operation_iff w .jz⟩

/-- Settles O5. -/
theorem sampleWordsDecode : Obligations.SampleWordsDecode := by
  unfold Obligations.SampleWordsDecode
  decide

/-! ### The assembler and the disassembler -/

theorem assemble_bare {op : Operation} (h : op.bareAllowed = true) :
    assemble (.bare op) = some (encode (Instr.make op (.imm 0))) := by
  simp [assemble, AsmInstr.wellFormed, h]

/-- An operand that is a field of the encoding is in the assembler's range (R68). -/
theorem assemble_imm (op : Operation) (k : Field) :
    assemble (.imm op k.toNat) = some (encode (Instr.make op (.imm k))) := by
  simp [assemble, AsmInstr.wellFormed, k.isLt]

theorem assemble_ind (op : Operation) (k : Field) :
    assemble (.ind op k.toNat) = some (encode (Instr.make op (.ind k))) := by
  simp [assemble, AsmInstr.wellFormed, k.isLt]

/-- How the word of an instruction prints (R68): bare, with an immediate operand, or with an indirect one. -/
theorem disassemble_cases (w : Word) :
    (∃ op, op.bareAllowed = true ∧ w = encode (Instr.make op (.imm 0)) ∧ disassemble w = .bare op) ∨
    (∃ op k, ¬ (op.bareAllowed = true ∧ k = 0) ∧ w = encode (Instr.make op (.imm k)) ∧
      disassemble w = .imm op k.toNat) ∨
    ∃ op k, w = encode (Instr.make op (.ind k)) ∧ disassemble w = .ind op k.toNat := by
  have hw : ∀ o, (decode w).operand = o → w = encode (Instr.make (decode w).operation o) := by
    rintro o rfl
    rw [Instr.make_operation_operand, ← decode_eq_iff]
  cases ho : (decode w).operand with
  | imm k =>
    by_cases hb : (decode w).operation.bareAllowed = true ∧ k = 0
    · obtain ⟨ha, rfl⟩ := hb
      exact .inl ⟨_, ha, hw _ ho, by simp [disassemble, ho, ha]⟩
    · exact .inr (.inl ⟨_, k, hb, hw _ ho, by simpa [disassemble, ho] using hb⟩)
  | ind k => exact .inr (.inr ⟨_, k, hw _ ho, by simp [disassemble, ho]⟩)

theorem assemble_disassemble (w : Word) : assemble (disassemble w) = some w := by
  rcases disassemble_cases w with ⟨op, ha, hw, hd⟩ | ⟨op, k, -, hw, hd⟩ | ⟨op, k, hw, hd⟩
  · rw [hd, assemble_bare ha, ← hw]
  · rw [hd, assemble_imm, ← hw]
  · rw [hd, assemble_ind, ← hw]

/-- The words that print bare are the canonical encodings of the operations that may be written so (R66, R68). -/
theorem disassemble_eq_bare_iff (w : Word) (op : Operation) :
    disassemble w = .bare op ↔ op.bareAllowed = true ∧ w = encode (Instr.make op (.imm 0)) := by
  constructor
  · intro h
    rcases disassemble_cases w with ⟨op', ha, hw, hd⟩ | ⟨op', k, -, -, hd⟩ | ⟨op', k, -, hd⟩
    · obtain rfl : op' = op := AsmInstr.bare.inj (hd.symm.trans h)
      exact ⟨ha, hw⟩
    · cases hd.symm.trans h
    · cases hd.symm.trans h
  · rintro ⟨ha, hw⟩
    have hd : decode w = Instr.make op (.imm 0) := (decode_eq_iff w _).mpr hw
    simp [disassemble, hd, ha]

/-- Settles O6: only SHL and SHR may be written bare, and 0x2000 and 0x3000 are their canonical encodings. -/
theorem disassembledWordsReassemble : Obligations.DisassembledWordsReassemble := by
  refine ⟨assemble_disassemble, fun w op => ?_⟩
  rw [disassemble_eq_bare_iff]
  have hshl : encode (Instr.make .shl (.imm 0)) = 0x2000 := by decide
  have hshr : encode (Instr.make .shr (.imm 0)) = 0x3000 := by decide
  cases op with
  | shl => rw [hshl]; simp [Operation.bareAllowed]
  | shr => rw [hshr]; simp [Operation.bareAllowed]
  | _ => simp [Operation.bareAllowed]

namespace Machine

/-! ### The effective operand -/

@[simp] theorem effOperand_imm_toNat (k : Field) (s : State) : (effOperand (.imm k) s).toNat = k.toNat :=
  BitVec.toNat_setWidth_of_le (by decide)

@[simp] theorem effOperand_ind (k : Field) (s : State) : effOperand (.ind k) s = memRead s.mem k.toNat := rfl

/-- Settles O12: the zero extension keeps the number, and a read is modulo N already. -/
theorem effectiveOperandForms : Obligations.EffectiveOperandForms := fun k s =>
  ⟨effOperand_imm_toNat k s, by rw [effOperand_ind, memRead_mod_size]⟩

/-- The I/O half is the addresses from 32768 up (R43). -/
theorem isIo_iff (a : Word) : isIo a = true ↔ 32768 ≤ a.toNat :=
  (congrArg (· = true) (BitVec.msb_eq_decide a)).to_iff.trans decide_eq_true_iff

/-- Settles O13: an immediate operand is below 4096. -/
theorem onlyIndirectOperandsReachTheIoHalf : Obligations.OnlyIndirectOperandsReachTheIoHalf := by
  intro o s h
  cases o with
  | imm k =>
    rw [isIo_iff, effOperand_imm_toNat] at h
    have hk : k.toNat < 4096 := k.isLt
    omega
  | ind k => exact ⟨k, rfl, effOperand_ind k s⟩

/-! ### Totality -/

/-- Every instruction answers a next state in every state (R65, R100). -/
theorem exists_next_of_exec (i : Instr) (s : State) : ∃ t, exec i s = .next t := by
  cases i with
  | and o => exact ⟨_, rfl⟩
  | xor o => exact ⟨_, rfl⟩
  | shl o => exact ⟨_, rfl⟩
  | shr o => exact ⟨_, rfl⟩
  | load o => rcases execLoad_cases o s with ⟨-, e⟩ | ⟨-, -, e⟩ | ⟨-, u, -, e⟩ | ⟨-, x, -, -, e⟩ <;> exact ⟨_, e⟩
  | store o => rcases execStore_cases o s with ⟨-, e⟩ | ⟨-, -, e⟩ | ⟨-, -, e⟩ | ⟨-, -, e⟩ <;> exact ⟨_, e⟩
  | jmp o => exact ⟨_, exec_jmp o s⟩
  | jz o => exact ⟨_, exec_jz o s⟩

/-- Settles O31: an ended state answers itself, and in RUN the trace part answers a next state or hands over to the
instruction. -/
theorem everyStepHasANextState : Obligations.EveryStepHasANextState := by
  refine ⟨exists_next_of_exec, fun map s => ?_⟩
  by_cases hr : s.status = .run
  · rcases cycle_run_cases map hr with ⟨-, e⟩ | ⟨-, -, -, e⟩ | ⟨-, -, -, e⟩ | ⟨-, -, -, e⟩ <;> rw [e]
    · exact exists_next_of_exec _ _
    · exact ⟨_, rfl⟩
    · exact exists_next_of_exec _ _
    · exact ⟨_, rfl⟩
  · exact ⟨s, cycle_of_ended map hr⟩

end Machine
end Sys2Proof
end

section
/-! PROOFS. The statements about the sequencer (40_sequencer_and_step.md R80 to R82). -/

namespace Sys2Proof.Machine

open Function

/-! ### One application -/

/-- L halves its argument and adds the feedback mask if that was odd (R80). -/
theorem toNat_seqNext (x : Byte) :
    (seqNext x).toNat = if x.toNat % 2 = 0 then x.toNat / 2 else (x.toNat / 2) ^^^ 0xB8 := by
  have hbit : x.getLsbD 0 = decide (x.toNat % 2 = 1) := Nat.testBit_zero x.toNat
  rw [seqNext, hbit]
  rcases Nat.mod_two_eq_zero_or_one x.toNat with h | h <;> simp [h, poly, Nat.shiftRight_one]

/-- A byte is its upper seven bits, shifted down and up again, and its bit 0. -/
theorem shiftRight_shiftLeft_or_bit (x : Byte) : (x >>> 1) <<< 1 ||| (if x[0] then 1 else 0) = x := by
  ext i hi
  cases i with
  | zero => cases x[0] <;> simp
  | succ i => cases x[0] <;> simp [hi, Nat.add_comm 1 i]

/-- `Linv` undoes L: bit 7 of L's value tells whether the feedback mask was added (R81 (c)). -/
theorem seqPrev_seqNext : LeftInverse seqPrev seqNext := by
  intro x
  have hx := shiftRight_shiftLeft_or_bit x
  have hpoly : poly[7] = true := rfl
  cases h : x[0] <;> simpa [seqNext, seqPrev, h, hpoly, BitVec.xor_assoc] using hx

/-- L undoes `Linv`, because L, one-to-one on the finitely many bytes, is onto. -/
theorem seqNext_seqPrev : RightInverse seqPrev seqNext :=
  seqPrev_seqNext.rightInverse_of_surjective (Finite.surjective_of_injective seqPrev_seqNext.injective)

/-- 0 is a fixed point of L (R81 (a)). -/
theorem seqNext_zero : seqNext 0 = 0 := rfl

/-! ### The candidate -/

@[simp] theorem candidate_toNat (s : State) : (candidate s).toNat = (seqNext (s.ctrl.setWidth 8)).toNat :=
  BitVec.toNat_setWidth_of_le (by decide)

@[simp] theorem candidate_setWidth (s : State) : (candidate s).setWidth 8 = seqNext (s.ctrl.setWidth 8) :=
  BitVec.setWidth_setWidth_of_le _ (by decide)

/-- Settles O7: L by the parity of its argument, and the candidate as L of CTRL's low byte. -/
theorem sequencerAndCandidate : Obligations.SequencerAndCandidate := by
  refine ⟨toNat_seqNext, by decide, fun s => ⟨?_, ?_⟩, fun s t h => ?_⟩
  · rw [candidate_toNat, BitVec.ofNat_toNat]
  · exact candidate_toNat s ▸ (seqNext _).isLt
  · have hlow : s.ctrl.setWidth 8 = t.ctrl.setWidth 8 := BitVec.eq_of_toNat_eq (by simpa using h)
    rw [candidate, candidateOf, hlow, candidate, candidateOf]

/-! ### The period -/

/-- Iterates of L, one-to-one and fixing 0, reach 0 from 0 only. -/
theorem seqNext_iterate_eq_zero_iff (n : Nat) (x : Byte) : seqNext^[n] x = 0 ↔ x = 0 := by
  have h0 : seqNext^[n] 0 = 0 := iterate_fixed seqNext_zero n
  rw [← (seqPrev_seqNext.injective.iterate n).eq_iff (a := x), h0]

/-- 255 steps from 1 in three rounds of 85, of which the last leads back to 1. -/
theorem seqNext_iterate_85 :
    seqNext^[85] 0x01 = 0xDA ∧ seqNext^[85] 0xDA = 0xDB ∧ seqNext^[85] 0xDB = 0x01 := by
  refine ⟨?_, ?_, ?_⟩ <;> simp [iterate_succ_apply, seqNext, poly]

theorem isPeriodicPt_seqNext_one : IsPeriodicPt seqNext 255 1 := by
  obtain ⟨h1, h2, h3⟩ := seqNext_iterate_85
  calc seqNext^[255] 1
      = seqNext^[85] (seqNext^[85] (seqNext^[85] 1)) := by
        rw [← iterate_add_apply, ← iterate_add_apply]
    _ = 1 := by rw [h1, h2, h3]

/-- If `p * q` is a period and `q` is none, the prime `p` divides the minimal period. -/
theorem prime_dvd_minimalPeriod {α : Type} {f : α → α} {x : α} {p q : Nat} (hp : p.Prime)
    (hpq : IsPeriodicPt f (p * q) x) (hq : ¬ IsPeriodicPt f q x) : p ∣ minimalPeriod f x := by
  rw [isPeriodicPt_iff_minimalPeriod_dvd] at hpq hq
  exact (Nat.coprime_or_dvd_of_prime hp _).resolve_left fun h => hq (h.symm.dvd_of_dvd_mul_left hpq)

/-- 1 has the period 255 = 3 · 5 · 17, and none of 255 / 3, 255 / 5 and 255 / 17. -/
theorem minimalPeriod_seqNext_one : minimalPeriod seqNext 1 = 255 := by
  have h := isPeriodicPt_seqNext_one
  have h3 : 3 ∣ minimalPeriod seqNext 1 := by
    refine prime_dvd_minimalPeriod (q := 85) (by decide) h ?_
    rw [IsPeriodicPt, IsFixedPt, seqNext_iterate_85.1]
    decide
  have h5 : 5 ∣ minimalPeriod seqNext 1 := by
    refine prime_dvd_minimalPeriod (q := 51) (by decide) h ?_
    simp [IsPeriodicPt, IsFixedPt, iterate_succ_apply, seqNext, poly]
  have h17 : 17 ∣ minimalPeriod seqNext 1 := by
    refine prime_dvd_minimalPeriod (q := 15) (by decide) h ?_
    simp [IsPeriodicPt, IsFixedPt, iterate_succ_apply, seqNext, poly]
  exact Nat.dvd_antisymm h.minimalPeriod_dvd (by omega)

/-- Every nonzero byte is an iterate of 1: the 255 distinct iterates are all 255 of them. -/
theorem exists_iterate_one_eq {x : Byte} (hx : x ≠ 0) : ∃ n, seqNext^[n] 1 = x := by
  have hmaps : Set.MapsTo (seqNext^[·] 1) (Finset.range 255) ({0}ᶜ : Finset Byte) :=
    fun n _ => by
      have hne : seqNext^[n] 1 ≠ 0 := mt (seqNext_iterate_eq_zero_iff n 1).mp (by decide)
      simpa using hne
  have hinj : Set.InjOn (seqNext^[·] 1) (Finset.range 255) := by
    rw [Finset.coe_range, ← minimalPeriod_seqNext_one]
    exact iterate_injOn_Iio_minimalPeriod
  have hcard : ({0}ᶜ : Finset Byte).card ≤ (Finset.range 255).card := by
    have hbytes : Fintype.card Byte = 256 :=
      FinEnum.card_eq_fintypeCard.symm.trans (FinEnum.card_bitVec 8)
    simp [Finset.card_compl, hbytes]
  obtain ⟨n, -, hn⟩ := Finset.surjOn_of_injOn_of_card_le _ hmaps hinj hcard (by simpa using hx)
  exact ⟨n, hn⟩

/-- The nonzero bytes are one orbit of L, of length 255 (R81 (b)). -/
theorem minimalPeriod_seqNext {x : Byte} (hx : x ≠ 0) : minimalPeriod seqNext x = 255 := by
  obtain ⟨n, rfl⟩ := exists_iterate_one_eq hx
  have hper : (1 : Byte) ∈ periodicPts seqNext := ⟨255, by decide, isPeriodicPt_seqNext_one⟩
  rw [minimalPeriod_apply_iterate hper, minimalPeriod_seqNext_one]

/-- Settles O8: 255 is the minimal period of every nonzero byte. -/
theorem sequencerPeriod255 : Obligations.SequencerPeriod255 := by
  refine ⟨seqNext_zero, fun x hx => ⟨?_, fun n => ?_, fun i j hi hj => ?_⟩,
    fun x => ⟨seqPrev_seqNext x, seqNext_seqPrev x⟩⟩
  · exact minimalPeriod_seqNext hx ▸ iterate_minimalPeriod
  · exact mt (seqNext_iterate_eq_zero_iff n x).mp hx
  · rw [← minimalPeriod_seqNext hx] at hi hj
    exact (iterate_eq_iterate_iff_of_lt_minimalPeriod hi hj).mp

end Sys2Proof.Machine
end

section
/-! PROOFS. The statements about the whole step (40_sequencer_and_step.md R83 to R95) and about implicit runs (R92). -/

namespace Sys2Proof.Machine

/-! ### The parts of a step -/

/-- A step whose trace write is not due is the dispatch alone (R87, R88). -/
theorem cycle_of_not_traced (map : OpcodeMap) {s : State} (hr : s.status = .run)
    (h : s.traceEn = false ∨ s.wait.traceDue = false) : cycle map s = exec (fetched map s) s := by
  rcases cycle_run_cases map hr with ⟨-, e⟩ | ⟨hen, hdue, -⟩ | ⟨hen, hdue, -⟩ | ⟨hen, hdue, -⟩
  · exact e
  all_goals simp [hen, hdue] at h

/-- A step whose trace write is due goes by the trace port's answer `x` (R87, R174). -/
theorem cycle_of_traceDue (map : OpcodeMap) {s : State} {x : Option Ack} {rest : Answers Ack} (hr : s.status = .run)
    (hen : s.traceEn = true) (hdue : s.wait.traceDue = true) (hn : nextTrace s = (x, rest)) :
    cycle map s = match x with
      | none => .next { s with wait := .waitTrace, env := { s.env with traceAnswers := rest } }
      | some .ok => exec (fetched map s) { s with
          wait := .none
          env := { s.env with traceAnswers := rest, log := s.env.log ++ [.trace (traceRecord s) .ok] } }
      | some .failure => .next { s with
          status := .faultTrace
          wait := .none
          env := { s.env with traceAnswers := rest, log := s.env.log ++ [.trace (traceRecord s) .failure] } } := by
  rcases cycle_run_cases map hr with ⟨h, -⟩ | ⟨-, -, h, e⟩ | ⟨-, -, h, e⟩ | ⟨-, -, h, e⟩
  · simp [hen, hdue] at h
  all_goals
    rw [hn] at h e
    subst h
    exact e

/-- A step held on a channel has made its trace write already (R90 (d), R174). -/
theorem traceDue_of_channel {w : Wait} (h : w = .waitIn ∨ w = .waitOut) : w.traceDue = false := by
  rcases h with rfl | rfl <;> rfl

/-- A step that begins, or is held on the trace port, has its trace write ahead (R87). -/
theorem traceDue_of_trace {w : Wait} (h : w = .none ∨ w = .waitTrace) : w.traceDue = true := by
  rcases h with rfl | rfl <;> rfl

/-- Settles O29: the trace write is not due, or the status is terminal. -/
theorem stepRunsTheDecodedInstruction : Obligations.StepRunsTheDecodedInstruction := by
  refine ⟨fun s hr h => ?_, fun s => cycle_of_ended _⟩
  rw [memRead_mod_size]
  exact cycle_of_not_traced _ hr (h.imp_right traceDue_of_channel)

/-- Settles O30: one case of the trace part for each answer of the trace port. -/
theorem tracePartOfTheStep : Obligations.TracePartOfTheStep := by
  rintro s _ _ hr hw rfl rfl
  have hdue := traceDue_of_trace hw
  refine ⟨fun hen => cycle_of_not_traced _ hr (.inl hen), fun rest hen hn => ?_, fun rest hen hn => ?_,
    fun rest hen hn => ?_⟩
  · exact ⟨_, cycle_of_traceDue _ hr hen hdue hn, rfl, rfl⟩
  · exact cycle_of_traceDue _ hr hen hdue hn
  · exact cycle_of_traceDue _ hr hen hdue hn

/-! ### What a completed and an incomplete step leave -/

/-- Settles O34: of the three effects of a step only completion leaves RUN with nothing waited for. -/
theorem controlAfterACompletedStep : Obligations.ControlAfterACompletedStep := by
  rintro map s t ⟨hr, h, hrun, hwait⟩
  cases StepEffect.of_cycle hr h with
  | completes a m e ha hm => rfl
  | holds w e hw => subst hwait; exact hw.elim
  | ends k e hk => subst hrun; exact hk.elim

/-- Settles O35: neither a hold nor an end names ACC, CTRL or memory. -/
theorem incompleteStepCommitsNothing : Obligations.IncompleteStepCommitsNothing := by
  intro map s t h hinc
  rcases eq_or_stepEffect_of_cycle h with ⟨-, rfl⟩ | ⟨hr, he⟩
  · exact ⟨rfl, rfl, rfl⟩
  · cases he with
    | completes a m e ha hm => exact absurd rfl (hinc.resolve_left fun hne => hne hr)
    | holds w e hw => exact ⟨rfl, rfl, rfl⟩
    | ends k e hk => exact ⟨rfl, rfl, rfl⟩

/-! ### The transactions of a step -/

/-- The dispatch answers at most one transaction, on a channel (R53, R54, R172, R173). -/
theorem log_of_exec {i : Instr} {s t : State} (h : exec i s = .next t) :
    ∃ io, t.env.log = s.env.log ++ io ∧ io.length ≤ 1 ∧ ∀ e ∈ io, e.isTrace = false := by
  by_cases hi : i.operation ≠ .load ∧ i.operation ≠ .store ∨ isIo (effOperand i.operand s) = false
  · exact ⟨[], by simp [(env_wait_of_exec hi h).1]⟩
  · cases i with
    | load o =>
      rcases execLoad_cases o s with ⟨hio, -⟩ | ⟨-, -, e⟩ | ⟨-, u, -, e⟩ | ⟨-, x, -, -, e⟩
      · exact absurd (.inr hio) hi
      all_goals cases e.symm.trans h
      · exact ⟨[], by simp⟩
      · exact ⟨[.input (.unit u)], by simp [Event.isTrace]⟩
      · exact ⟨[.input x], by simp [Event.isTrace]⟩
    | store o =>
      rcases execStore_cases o s with ⟨hio, -⟩ | ⟨-, -, e⟩ | ⟨-, -, e⟩ | ⟨-, -, e⟩
      · exact absurd (.inr hio) hi
      all_goals cases e.symm.trans h
      · exact ⟨[], by simp⟩
      · exact ⟨[.output (s.acc.setWidth 8) .ok], by simp [Event.isTrace]⟩
      · exact ⟨[.output (s.acc.setWidth 8) .failure], by simp [Event.isTrace]⟩
    | _ => simp [Instr.operation] at hi

/-- Settles O38: the trace part answers at most one transaction and the dispatch another. -/
theorem transactionsOfAStep : Obligations.TransactionsOfAStep := by
  intro map s t h
  by_cases hr : s.status = .run
  · rcases cycle_run_cases map hr with ⟨-, e⟩ | ⟨-, hdue, -, e⟩ | ⟨-, hdue, -, e⟩ | ⟨-, hdue, -, e⟩ <;>
      rw [e] at h
    · obtain ⟨io, hlog, hlen, hio⟩ := log_of_exec h
      exact ⟨[], io, by simpa using hlog, by simp, hlen, by simp, hio, fun _ => rfl⟩
    · cases h
      exact ⟨[], [], by simp⟩
    · obtain ⟨io, hlog, hlen, hio⟩ := log_of_exec h
      exact ⟨[.trace (traceRecord s) .ok], io, hlog, le_rfl, hlen, by simp [Event.isTrace], hio,
        fun hch => absurd hdue (by simp [traceDue_of_channel hch])⟩
    · cases h
      exact ⟨[.trace (traceRecord s) .failure], [], by simp, le_rfl, by simp, by simp [Event.isTrace], by simp,
        fun hch => absurd hdue (by simp [traceDue_of_channel hch])⟩
  · cases (cycle_of_ended map hr).symm.trans h
    exact ⟨[], [], by simp⟩

/-! ### Implicit runs -/

/-- A completed step that does not transfer control takes the candidate (R92). -/
theorem Completes.ctrl_eq_candidate {map : OpcodeMap} {s t : State} (h : Completes map s t)
    (hf : FallsThrough map s) : t.ctrl = candidate s := by
  rw [controlAfterACompletedStep map s t h, if_neg]
  rintro (hj | ⟨hz, ha⟩)
  · exact hf.1 hj
  · exact hf.2 hz ha

/-- Settles O45, by induction on the run: each of its steps takes the candidate, which is L of the low byte. -/
theorem implicitRunsFollowTheSequencer : Obligations.ImplicitRunsFollowTheSequencer := by
  intro map n
  induction n with
  | zero =>
    rintro s t ⟨u, hc, hf, rfl⟩
    exact hc.ctrl_eq_candidate hf
  | succ n ih =>
    rintro s t ⟨u, hc, hf, hrun⟩
    rw [ih u t hrun, hc.ctrl_eq_candidate hf, candidate_setWidth, ← Function.iterate_succ_apply]

/-- A nonzero byte is back after k steps of L, 0 < k ≤ 255, for k = 255 only (R81 (b)). -/
theorem seqNext_iterate_eq_self_iff {x : Byte} (hx : x ≠ 0) {k : Nat} (hpos : 0 < k) (hk : k ≤ 255) :
    seqNext^[k] x = x ↔ k = 255 := by
  have h : seqNext^[k] x = x ↔ Function.minimalPeriod seqNext x ∣ k := Function.isPeriodicPt_iff_minimalPeriod_dvd
  rw [h, minimalPeriod_seqNext hx]
  omega

/-- Settles O46: the iterates of L from the low byte, zero-extended, with L's period. -/
theorem implicitRunsCloseAfter255 : Obligations.ImplicitRunsCloseAfter255 := by
  intro map n s t h
  have hnat : t.ctrl.toNat = (seqNext^[n + 1] (s.ctrl.setWidth 8)).toNat := by
    rw [implicitRunsFollowTheSequencer map n s t h, BitVec.toNat_setWidth_of_le (by decide)]
  have hlow : (s.ctrl.setWidth 8).toNat = s.ctrl.toNat % 256 := BitVec.toNat_setWidth _ _
  have hzero : s.ctrl.setWidth 8 = 0 ↔ s.ctrl.toNat % 256 = 0 := by
    rw [← hlow]
    exact BitVec.toNat_inj.symm
  have hctrl : t.ctrl = 0 ↔ s.ctrl.toNat % 256 = 0 := by
    rw [← hzero, ← seqNext_iterate_eq_zero_iff (n + 1), ← BitVec.toNat_inj, hnat]
    exact BitVec.toNat_inj (y := (0 : Byte))
  refine ⟨hnat ▸ (seqNext^[n + 1] _).isLt, hctrl.mpr, fun hne => ⟨mt hctrl.mp hne, fun hn => ?_⟩⟩
  rw [hnat, ← hlow, BitVec.toNat_inj]
  exact seqNext_iterate_eq_self_iff (mt hzero.mp hne) (by omega) (by omega)

end Sys2Proof.Machine
end

section
/-! PROOFS. The statements about AND, XOR, SHL and SHR (41_alu.md). -/

namespace Sys2Proof.Machine

/-! ### What they do and which words they are -/

theorem effOperand_imm (k : Field) (s : State) : effOperand (.imm k) s = k.setWidth 16 := rfl

/-- A step that commits a result in ACC and the candidate in CTRL changes nothing else but WAIT (R100). -/
theorem commit_alu (a : Word) (s : State) :
    commit a (candidate s) s.mem s = { s with acc := a, ctrl := candidate s, wait := .none } := rfl

/-- What AND does (R101). -/
theorem exec_and (o : Operand) (s : State) :
    exec (.and o) s = .next { s with acc := s.acc &&& effOperand o s, ctrl := candidate s, wait := .none } := by
  rw [exec, execAnd, commit_alu]

/-- What XOR does (R102). -/
theorem exec_xor (o : Operand) (s : State) :
    exec (.xor o) s = .next { s with acc := s.acc ^^^ effOperand o s, ctrl := candidate s, wait := .none } := by
  rw [exec, execXor, commit_alu]

/-- What SHL does (R103). -/
theorem exec_shl (o : Operand) (s : State) :
    exec (.shl o) s = .next { s with acc := s.acc <<< 1, ctrl := candidate s, wait := .none } := by
  rw [exec, execShl, commit_alu]

/-- What SHR does (R104). -/
theorem exec_shr (o : Operand) (s : State) :
    exec (.shr o) s = .next { s with acc := s.acc >>> 1, ctrl := candidate s, wait := .none } := by
  rw [exec, execShr, commit_alu]

/-- A word whose opcode field the map gives to `op` is `op` with the word's operand (R61, R64). -/
theorem decodeWith_of_opField {map : OpcodeMap} {w : Word} {op : Operation} (h : map (opField w) = op) :
    decodeWith map w = Instr.make op (operandOf w) := by
  rw [decodeWith, h]

/-! ### The shifts as arithmetic -/

theorem shiftLeft_one_eq_ofNat (a : Word) : a <<< 1 = BitVec.ofNat 16 (2 * a.toNat) := by
  apply BitVec.eq_of_toNat_eq
  rw [BitVec.toNat_shiftLeft, BitVec.toNat_ofNat, Nat.shiftLeft_eq, pow_one, Nat.mul_comm]

theorem ushiftRight_one_eq_ofNat (a : Word) : a >>> 1 = BitVec.ofNat 16 (a.toNat / 2) := by
  rw [← Nat.shiftRight_one, ← BitVec.toNat_ushiftRight, BitVec.ofNat_toNat, BitVec.setWidth_eq]

/-! ### The statements -/

/-- Settles O14: AND with the effective operand in each of its two forms. -/
theorem andResult : Obligations.AndResult := by
  refine ⟨fun k s => ?_, fun k s => ?_, fun map w h => decodeWith_of_opField h⟩
  · rw [exec_and, effOperand_imm]
  · rw [exec_and, effOperand_ind]

/-- Settles O15: XOR with the effective operand in each of its two forms. -/
theorem xorResult : Obligations.XorResult := by
  refine ⟨fun k s => ?_, fun k s => ?_, fun map w h => decodeWith_of_opField h⟩
  · rw [exec_xor, effOperand_imm]
  · rw [exec_xor, effOperand_ind]

/-- Settles O16: a shift left by one place doubles the number, modulo 2^16. -/
theorem shlResult : Obligations.ShlResult := by
  refine ⟨fun o s => ?_, fun map w h => decodeWith_of_opField h⟩
  rw [exec_shl, shiftLeft_one_eq_ofNat]

/-- Settles O17: a logical shift right by one place halves the number. -/
theorem shrResult : Obligations.ShrResult := by
  refine ⟨fun o s => ?_, fun map w h => decodeWith_of_opField h⟩
  rw [exec_shr, ushiftRight_one_eq_ofNat]

end Sys2Proof.Machine
end

section
/-! PROOFS. The statements about LOAD and STORE (42_load_store.md). -/

namespace Sys2Proof.Machine

/-! ### The channel half, by the answer of the port -/

/-- LOAD on the I/O half goes by the input port's answer `x` (R120, R162, R172). -/
theorem exec_load_of_io {o : Operand} {s : State} {x : Option InAnswer} {rest : Answers InAnswer}
    (hio : isIo (effOperand o s) = true) (hn : nextInput s = (x, rest)) :
    exec (.load o) s = match x with
      | none => .next { s with wait := .waitIn, env := { s.env with inAnswers := rest } }
      | some (.unit u) => .next { s with
          acc := u.setWidth 16
          ctrl := candidate s
          wait := .none
          env := { s.env with inAnswers := rest, log := s.env.log ++ [.input (.unit u)] } }
      | some a => .next { s with
          status := .faultIn
          wait := .none
          env := { s.env with inAnswers := rest, log := s.env.log ++ [.input a] } } := by
  have hcases := execLoad_cases o s
  rw [hn] at hcases
  rcases hcases with ⟨hmem, -⟩ | ⟨-, rfl, e⟩ | ⟨-, u, rfl, e⟩ | ⟨-, a, rfl | rfl, rfl, e⟩
  · exact absurd (hio.symm.trans hmem) (by decide)
  all_goals exact e

/-- STORE on the I/O half goes by the output port's answer `x` (R121, R163, R173). -/
theorem exec_store_of_io {o : Operand} {s : State} {x : Option Ack} {rest : Answers Ack}
    (hio : isIo (effOperand o s) = true) (hn : nextOutput s = (x, rest)) :
    exec (.store o) s = match x with
      | none => .next { s with wait := .waitOut, env := { s.env with outAnswers := rest } }
      | some .ok => .next { s with
          ctrl := candidate s
          wait := .none
          env := { s.env with outAnswers := rest, log := s.env.log ++ [.output (s.acc.setWidth 8) .ok] } }
      | some .failure => .next { s with
          status := .faultOut
          wait := .none
          env := { s.env with
            outAnswers := rest, log := s.env.log ++ [.output (s.acc.setWidth 8) .failure] } } := by
  have hcases := execStore_cases o s
  rw [hn] at hcases
  rcases hcases with ⟨hmem, -⟩ | ⟨-, rfl, e⟩ | ⟨-, rfl, e⟩ | ⟨-, rfl, e⟩
  · exact absurd (hio.symm.trans hmem) (by decide)
  all_goals exact e

/-! ### The statements -/

/-- Settles O22: the memory committed is the written one, and it reads ACC at the written cell only. -/
theorem storeToMemory : Obligations.StoreToMemory := by
  intro o s hio
  refine ⟨memWrite s.mem (effOperand o s).toNat s.acc, exec_store_of_memory hio, memWrite_size _ _ _,
    fun hm => ?_, fun b hb => ?_⟩
  · exact memRead_memWrite_eq hm s.acc rfl
  · exact memRead_memWrite_ne s.acc hb

/-- Settles O18: the memory half of LOAD. -/
theorem loadFromMemory : Obligations.LoadFromMemory := fun _ _ hio =>
  exec_load_of_memory hio

/-- Settles O19: the input port's answer is a unit. -/
theorem loadFromInput : Obligations.LoadFromInput := fun _ _ _ _ hio hn =>
  exec_load_of_io hio hn

/-- Settles O23: the output port's answer is Ok. -/
theorem storeToOutput : Obligations.StoreToOutput := fun _ _ _ hio hn =>
  exec_store_of_io hio hn

end Sys2Proof.Machine
end

section
/-! PROOFS. The statements about JMP and JZ (43_control.md). -/

namespace Sys2Proof.Machine

/-- Settles O26: the two branches of JMP, by whether its effective operand is the current control value. -/
theorem jmpTransfersOrHalts : Obligations.JmpTransfersOrHalts := by
  refine ⟨fun o s heq => ?_, fun o s hne => ?_, fun map w h => decodeWith_of_opField h⟩
  · rw [exec_jmp, if_pos heq]
  · rw [exec_jmp, if_neg hne]

/-- Settles O27: the two branches of JZ, by whether ACC is 0. -/
theorem jzTransfersOnZero : Obligations.JzTransfersOnZero := by
  refine ⟨fun o s hzero => ?_, fun o s hne => ?_, fun map w h => decodeWith_of_opField h⟩
  · rw [exec_jz, if_pos hzero]
  · rw [exec_jz, if_neg hne]

end Sys2Proof.Machine
end

section
/-! PROOFS. The statements about faults and holds, the host's answers, and tracing (60_exceptions.md R160 to R179). -/

namespace Sys2Proof.Machine

/-! ### Failures and holds of the channels -/

/-- Settles O20: both failing answers take the same branch of the input port. -/
theorem loadInputFailureFaults : Obligations.LoadInputFailureFaults := by
  rintro o s a rest hio hn (rfl | rfl)
  · exact exec_load_of_io hio hn
  · exact exec_load_of_io hio hn

/-- Settles O21: the input port gives no answer. -/
theorem loadHoldsUntilAnswered : Obligations.LoadHoldsUntilAnswered := fun _ _ _ hio hn =>
  ⟨_, exec_load_of_io hio hn, rfl, rfl⟩

/-- Settles O24: the output port's answer is a failure. -/
theorem storeOutputFailureFaults : Obligations.StoreOutputFailureFaults := fun _ _ _ hio hn =>
  exec_store_of_io hio hn

/-- Settles O25: the output port gives no answer. -/
theorem storeHoldsUntilAnswered : Obligations.StoreHoldsUntilAnswered := fun _ _ _ hio hn =>
  ⟨_, exec_store_of_io hio hn, rfl, rfl⟩

/-! ### Runs -/

/-- A run of `k + 1` steps is one step and a run of `k` (R89). -/
theorem run_succ_of_cycle {s t : State} (k : Nat) (h : cycle defaultOpcodeMap s = .next t) :
    Host.Core.run core (k + 1) s = Host.Core.run core k t := by
  have hstep : core.step s = .next t := h
  simp only [Host.Core.run, hstep]

/-- Settles O41, by induction on the number of steps: each one leaves an ended state as it is. -/
theorem endedRunsStay : Obligations.EndedRunsStay := by
  intro k s hs
  induction k with
  | zero => rfl
  | succ k ih => rw [run_succ_of_cycle k (cycle_of_ended _ hs), ih]

/-! ### What a host answers, call by call -/

section
variable {α : Type} (draw : Nat → Option α)

/-- The listed answers are given first, one to a call. -/
theorem answerAt_listed (l : List (Option α)) (f : After α) (n : Nat) :
    answerAt draw { listed := l, after := f } n =
      if h : n < l.length then l[n] else answerAt draw { listed := [], after := f } (n - l.length) := by
  induction l generalizing n with
  | nil => rfl
  | cons x l ih =>
    cases n with
    | zero => rfl
    | succ n => simp [ih]

/-- A host that repeats a round answers call `n` from place `n` of the round, counted round and round (I2). -/
theorem answerAt_repeats (x : Option α) (l : List (Option α)) (n : Nat) :
    answerAt draw { listed := [], after := .repeats x l } n = (x :: l)[n % (l.length + 1)]?.join := by
  induction n using Nat.strong_induction_on with
  | _ n ih =>
    cases n with
    | zero => simp
    | succ n =>
      rw [answerAt_succ, nextAnswer_repeats, answerAt_listed]
      split
      · next hn => simp [Nat.mod_eq_of_lt (Nat.succ_lt_succ hn), hn]
      · next hn =>
        have hround : n + 1 = n - l.length + (l.length + 1) := by omega
        rw [ih (n - l.length) (by omega), hround, Nat.add_mod_right]

/-- A host that draws its answers gives the values of its free stream in order (I2). -/
theorem answerAt_drawn (m n : Nat) :
    answerAt draw { listed := [], after := .drawn m } n = draw (m + n) := by
  induction n generalizing m with
  | zero => rfl
  | succ n ih => rw [answerAt_succ, nextAnswer_drawn, ih, Nat.add_right_comm, Nat.add_assoc]

end

/-- Settles O59: the listed answers, then the host's way to go on. -/
theorem answersOfTheHost : Obligations.AnswersOfTheHost := by
  intro α draw l f n
  rw [answerAt_listed]
  congr 1
  funext _
  cases f with
  | never => exact answerAt_never draw _
  | repeats x rest => exact answerAt_repeats draw x rest _
  | drawn m => exact answerAt_drawn draw m _

/-! ### Tracing: the untraced copy of a state -/

@[simp] theorem effOperand_untraced (o : Operand) (s : State) : effOperand o (untraced s) = effOperand o s :=
  effOperand_congr o rfl

/-- A hold on the trace port is not seen without tracing (R174). -/
theorem untraced_traceHeld {s : State} (rest : Answers Ack) (hdue : s.wait.traceDue = true) :
    untraced { s with wait := .waitTrace, env := { s.env with traceAnswers := rest } } = untraced s := by
  cases hw : s.wait <;> simp_all [untraced, Wait.traceDue]

/-- An answered trace record is not seen without tracing (R174). -/
theorem untraced_traceSent {s : State} (rest : Answers Ack) (r : TraceRecord) (a : Ack)
    (hdue : s.wait.traceDue = true) :
    untraced { s with
      wait := .none
      env := { s.env with traceAnswers := rest, log := s.env.log ++ [.trace r a] } } = untraced s := by
  cases hw : s.wait <;> simp_all [untraced, Wait.traceDue, Event.isTrace]

/-- LOAD does the same with and without tracing. -/
theorem exec_load_untraced {o : Operand} {s t : State} (h : exec (.load o) s = .next t) :
    exec (.load o) (untraced s) = .next (untraced t) := by
  cases hio : isIo (effOperand o s)
  · cases (exec_load_of_memory hio).symm.trans h
    exact exec_load_of_memory (s := untraced s) hio
  · rcases hn : nextInput s with ⟨x, rest⟩
    have hs := (exec_load_of_io hio hn).symm.trans h
    rw [exec_load_of_io (s := untraced s) hio hn]
    rcases x with _ | u | _ | _ <;> cases hs <;> simp [untraced, Event.isTrace, candidate]

/-- STORE does the same with and without tracing. -/
theorem exec_store_untraced {o : Operand} {s t : State} (h : exec (.store o) s = .next t) :
    exec (.store o) (untraced s) = .next (untraced t) := by
  cases hio : isIo (effOperand o s)
  · cases (exec_store_of_memory hio).symm.trans h
    exact exec_store_of_memory (s := untraced s) hio
  · rcases hn : nextOutput s with ⟨x, rest⟩
    have hs := (exec_store_of_io hio hn).symm.trans h
    rw [exec_store_of_io (s := untraced s) hio hn]
    rcases x with _ | _ | _ <;> cases hs <;> simp [untraced, Event.isTrace, candidate]

/-- Every instruction does the same with and without tracing (R174): none reads TRACE_EN, the trace port or the log. -/
theorem exec_untraced {i : Instr} {s t : State} (h : exec i s = .next t) :
    exec i (untraced s) = .next (untraced t) := by
  cases i with
  | and o => cases h; exact exec_and o _
  | xor o => cases h; exact exec_xor o _
  | shl o => cases h; exact exec_shl o _
  | shr o => cases h; exact exec_shr o _
  | load o => exact exec_load_untraced h
  | store o => exact exec_store_untraced h
  | jmp o =>
    cases (exec_jmp o s).symm.trans h
    rw [exec_jmp, effOperand_untraced, apply_ite untraced]
    rfl
  | jz o =>
    cases (exec_jz o s).symm.trans h
    exact exec_jz o _

/-! ### Tracing: steps and runs -/

/-- A step in RUN whose record, if it is due, is answered Ok does what the untraced step does (R174). -/
theorem cycle_untraced {map : OpcodeMap} {s t : State} (hr : s.status = .run)
    (hok : s.traceEn = false ∨ s.wait.traceDue = false ∨ (nextTrace s).1 = some .ok)
    (h : cycle map s = .next t) : cycle map (untraced s) = .next (untraced t) := by
  rw [cycle_of_untraced map (s := untraced s) hr rfl]
  rcases cycle_run_cases map hr with ⟨-, e⟩ | ⟨hen, hdue, hn, -⟩ | ⟨-, hdue, -, e⟩ | ⟨hen, hdue, hn, -⟩
  · exact exec_untraced (e.symm.trans h)
  · simp [hen, hdue, hn] at hok
  · rw [← untraced_traceSent _ (traceRecord s) .ok hdue]
    exact exec_untraced (e.symm.trans h)
  · simp [hen, hdue, hn] at hok

/-- Settles O47: the instruction does the same in both, and a hold on the trace port is not seen without tracing. -/
theorem tracedStepMatchesUntraced : Obligations.TracedStepMatchesUntraced := by
  intro map s t hr hen h
  refine ⟨fun hok => cycle_untraced hr (.inr hok) h, fun hdue hn => ?_⟩
  cases (cycle_of_traceDue map hr hen hdue (Prod.ext hn rfl)).symm.trans h
  exact untraced_traceHeld _ hdue

/-- No instruction makes a call at the trace port (R87). -/
theorem traceAnswers_of_exec {i : Instr} {s t : State} (h : exec i s = .next t) :
    t.env.traceAnswers = s.env.traceAnswers := by
  by_cases hi : i.operation ≠ .load ∧ i.operation ≠ .store ∨ isIo (effOperand i.operand s) = false
  · rw [(env_wait_of_exec hi h).1]
  · cases i with
    | load o =>
      rcases execLoad_cases o s with ⟨-, e⟩ | ⟨-, -, e⟩ | ⟨-, u, -, e⟩ | ⟨-, x, -, -, e⟩ <;>
        cases e.symm.trans h <;> rfl
    | store o =>
      rcases execStore_cases o s with ⟨-, e⟩ | ⟨-, -, e⟩ | ⟨-, -, e⟩ | ⟨-, -, e⟩ <;>
        cases e.symm.trans h <;> rfl
    | _ => simp [Instr.operation] at hi

/-- A call of the step makes at most one call at the trace port (R87, R174). -/
theorem traceAnswers_of_cycle {map : OpcodeMap} {s t : State} (h : cycle map s = .next t) :
    t.env.traceAnswers = s.env.traceAnswers ∨ t.env.traceAnswers = (nextTrace s).2 := by
  by_cases hr : s.status = .run
  · rcases cycle_run_cases map hr with ⟨-, e⟩ | ⟨-, -, -, e⟩ | ⟨-, -, -, e⟩ | ⟨-, -, -, e⟩ <;> rw [e] at h
    · exact .inl (traceAnswers_of_exec h)
    · cases h; exact .inr rfl
    · exact .inr (traceAnswers_of_exec h)
    · cases h; exact .inr rfl
  · cases (cycle_of_ended map hr).symm.trans h
    exact .inl rfl

/-- Settles O48, by induction on the number of steps: the answers left after a step are again Ok to every call the
steps left can make. -/
theorem tracedRunMatchesUntraced : Obligations.TracedRunMatchesUntraced := by
  intro k s t hok h
  induction k generalizing s with
  | zero => cases h; rfl
  | succ k ih =>
    by_cases hr : s.status = .run
    · obtain ⟨u, hu⟩ := everyStepHasANextState.2 defaultOpcodeMap s
      rw [run_succ_of_cycle k hu] at h
      rw [run_succ_of_cycle k (cycle_untraced hr (.inr (.inr (hok 0 k.succ_pos))) hu)]
      exact ih u (forall_answerAt_of_next _ (P := (· = some .ok)) hok (traceAnswers_of_cycle hu)) h
    · cases (endedRunsStay (k + 1) s hr).symm.trans h
      exact endedRunsStay (k + 1) _ hr

end Sys2Proof.Machine
end

section
/-! PROOFS. The statements about reset and about the loader (70_reset_and_hazards.md R190 to R193). -/

namespace Sys2Proof.Machine

/-- The preload writes keep N (R178). -/
@[simp] theorem preloadCells_size (l : List (Word × Word)) (m : Memory) : (preloadCells l m).size = m.size := by
  induction l generalizing m with
  | nil => rfl
  | cons p l ih => exact ih _

/-- A cell holds the last of the preload writes to it, and without one what it held (R178). -/
theorem memRead_preloadCells {m : Memory} (hm : m.wf) (l : List (Word × Word)) (a : Nat) :
    memRead (preloadCells l m) a =
      ((l.reverse.find? fun p => p.1.toNat % m.size == a % m.size).map Prod.snd).getD (memRead m a) := by
  induction l generalizing m with
  | nil => rfl
  | cons p l ih =>
    obtain ⟨b, v⟩ := p
    rw [preloadCells, ih (hm.memWrite _ _), memWrite_size, List.reverse_cons, List.find?_append]
    cases l.reverse.find? fun p => p.1.toNat % m.size == a % m.size with
    | some q => rfl
    | none =>
      by_cases h : a % m.size = b.toNat % m.size
      · simp [h, memRead_memWrite_eq hm v h]
      · simp [Ne.symm h, memRead_memWrite_ne v h]

/-- Settles O50: the registers by definition, and memory by the preload writes alone. -/
theorem resetTakesItsInputs : Obligations.ResetTakesItsInputs := fun inp _ hm =>
  ⟨rfl, rfl, rfl, rfl, rfl, preloadCells_size _ _, memRead_preloadCells hm inp.preload⟩

/-- The loader at cell `i` leaves the cells below `i` alone and writes the words that are left from there on, up to the
first malformed token (R191). -/
theorem memRead_loadFrom {m : Memory} (hm : m.wf) (tokens : List (Option Word)) (i : Nat) {j : Nat} (hj : j < m.size) :
    memRead (loadFrom i tokens m) j =
      if j < i then memRead m j else ((tokens.takeWhile Option.isSome)[j - i]?.join).getD (memRead m j) := by
  induction tokens generalizing m i with
  | nil => simp [loadFrom]
  | cons x tokens ih =>
    cases x with
    | none => simp [loadFrom]
    | some v =>
      rw [loadFrom]
      by_cases hi : i < m.size
      · rw [if_pos hi, ih (hm.memWrite i v) (i + 1) hj]
        have hother (hne : j ≠ i) : memRead (memWrite m i v) j = memRead m j :=
          memRead_memWrite_ne v (by rwa [Nat.mod_eq_of_lt hj, Nat.mod_eq_of_lt hi])
        rcases Nat.lt_trichotomy j i with hlt | rfl | hgt
        · rw [if_pos (by omega), if_pos hlt, hother (by omega)]
        · simp [memRead_memWrite_eq hm v rfl]
        · have hidx : j - i = j - (i + 1) + 1 := by omega
          rw [if_neg (by omega), if_neg (by omega), hidx, hother (by omega)]
          simp
      · rw [if_neg hi, if_pos (by omega)]

/-- Settles O51: the loader starts at cell 0 of a memory of zeros. -/
theorem loaderImage : Obligations.LoaderImage := by
  intro last tokens i hi
  have hwf : (zeroMemory last).wf := ⟨List.Pairwise.nil, by simp [zeroMemory]⟩
  have h := memRead_loadFrom hwf tokens 0 (Nat.lt_succ_of_le hi)
  rwa [if_neg (Nat.not_lt_zero i)] at h

end Sys2Proof.Machine
end

section
/-! PROOFS. The statements about holds that no answer ends (70_reset_and_hazards.md R198 (d)). -/

namespace Sys2Proof.Machine

/-! ### Repeated steps -/

/-- Steps that each take the property at one number to the property at the number before it can be made that many times
(R89). -/
theorem exists_run_of_steps {P : Nat → State → Prop}
    (hstep : ∀ n s, P (n + 1) s → ∃ t, cycle defaultOpcodeMap s = .next t ∧ P n t) (k : Nat) {s : State} (h : P k s) :
    ∃ t, Host.Core.run core k s = .next t ∧ P 0 t := by
  induction k generalizing s with
  | zero => exact ⟨s, rfl, h⟩
  | succ k ih =>
    obtain ⟨u, hu, hP⟩ := hstep k s h
    rw [run_succ_of_cycle k hu]
    exact ih hP

/-- A state that a step leaves as it is stays for any number of steps. -/
theorem run_of_cycle_eq_self {s : State} (h : cycle defaultOpcodeMap s = .next s) (k : Nat) :
    Host.Core.run core k s = .next s := by
  induction k with
  | zero => rfl
  | succ k ih => rw [run_succ_of_cycle k h, ih]

/-- If every unanswered call on a port leaves the state `hold a`, `a` being the answers left there, then so does any
number of them in a row (R175). -/
theorem run_of_unanswered {α : Type} (draw : Nat → Option α) (hold : Answers α → State)
    (hstep : ∀ a, (nextAnswer draw a).1 = none → cycle defaultOpcodeMap (hold a) = .next (hold (nextAnswer draw a).2))
    (k : Nat) {s : State} {a : Answers α}
    (hfirst : (nextAnswer draw a).1 = none → cycle defaultOpcodeMap s = .next (hold (nextAnswer draw a).2))
    (h : ∀ n, n ≤ k → answerAt draw a n = none) :
    Host.Core.run core (k + 1) s = .next (hold (answersLeft draw (k + 1) a)) := by
  induction k generalizing s a with
  | zero => exact run_succ_of_cycle 0 (hfirst (h 0 le_rfl))
  | succ k ih =>
    rw [run_succ_of_cycle (k + 1) (hfirst (h 0 (Nat.zero_le _)))]
    exact ih (hstep _) fun n hn => h (n + 1) (by omega)

/-! ### One unanswered call on each port -/

/-- `s` held on the input port, with the answers `a` left there (R172). -/
def heldOnInput (s : State) (a : Answers InAnswer) : State :=
  { s with wait := .waitIn, env := { s.env with inAnswers := a } }

/-- `s` held on the output port, with the answers `a` left there (R173). -/
def heldOnOutput (s : State) (a : Answers Ack) : State :=
  { s with wait := .waitOut, env := { s.env with outAnswers := a } }

/-- `s` held on the trace port, with the answers `a` left there (R174). -/
def heldOnTrace (s : State) (a : Answers Ack) : State :=
  { s with wait := .waitTrace, env := { s.env with traceAnswers := a } }

/-- An instruction is its operation with its operand. -/
theorem fetched_eq_make {map : OpcodeMap} {s : State} {op : Operation} (h : (fetched map s).operation = op) :
    fetched map s = Instr.make op (fetched map s).operand := by
  rw [← h, Instr.make_operation_operand]

/-- An unanswered input request holds the core and changes nothing else (R172). -/
theorem cycle_of_unanswered_load {map : OpcodeMap} {s : State} (hr : s.status = .run)
    (hsent : s.traceEn = false ∨ s.wait = .waitIn) (hop : (fetched map s).operation = .load)
    (hio : isIo (effOperand (fetched map s).operand s) = true) (hn : (nextInput s).1 = none) :
    cycle map s = .next (heldOnInput s (nextInput s).2) := by
  rw [cycle_of_not_traced map hr (hsent.imp_right fun hw => traceDue_of_channel (.inl hw)), fetched_eq_make hop]
  exact exec_load_of_io hio (Prod.ext hn rfl)

/-- An unanswered output offer holds the core and changes nothing else (R173). -/
theorem cycle_of_unanswered_store {map : OpcodeMap} {s : State} (hr : s.status = .run)
    (hsent : s.traceEn = false ∨ s.wait = .waitOut) (hop : (fetched map s).operation = .store)
    (hio : isIo (effOperand (fetched map s).operand s) = true) (hn : (nextOutput s).1 = none) :
    cycle map s = .next (heldOnOutput s (nextOutput s).2) := by
  rw [cycle_of_not_traced map hr (hsent.imp_right fun hw => traceDue_of_channel (.inr hw)), fetched_eq_make hop]
  exact exec_store_of_io hio (Prod.ext hn rfl)

/-- An unanswered trace record holds the core and changes nothing else (R174). -/
theorem cycle_of_unanswered_trace {map : OpcodeMap} {s : State} (hr : s.status = .run) (hen : s.traceEn = true)
    (hw : s.wait = .none ∨ s.wait = .waitTrace) (hn : (nextTrace s).1 = none) :
    cycle map s = .next (heldOnTrace s (nextTrace s).2) :=
  cycle_of_traceDue map hr hen (traceDue_of_trace hw) (Prod.ext hn rfl)

/-- Settles O42: the state a hold leaves is one in which the step makes the same call again. -/
theorem unansweredTransactionsHoldForEver : Obligations.UnansweredTransactionsHoldForEver := by
  intro k s hr
  refine ⟨fun hsent hop hio h => ⟨_, ?_, rfl⟩, fun hsent hop hio h => ⟨_, ?_, rfl⟩, fun hen hw h => ⟨_, ?_, rfl⟩⟩
  · exact run_of_unanswered Config.drawnInput (heldOnInput s)
      (fun a => cycle_of_unanswered_load (s := heldOnInput s a) hr (.inr rfl) hop hio)
      k (cycle_of_unanswered_load hr hsent hop hio) h
  · exact run_of_unanswered Config.drawnOutput (heldOnOutput s)
      (fun a => cycle_of_unanswered_store (s := heldOnOutput s a) hr (.inr rfl) hop hio)
      k (cycle_of_unanswered_store hr hsent hop hio) h
  · exact run_of_unanswered Config.drawnTrace (heldOnTrace s)
      (fun a => cycle_of_unanswered_trace (s := heldOnTrace s a) hr hen (.inr rfl))
      k (cycle_of_unanswered_trace hr hen hw) h

end Sys2Proof.Machine
end

section
/-! PROOFS. What a step adds to the log, and the units a run takes and gives (70_reset_and_hazards.md R200). -/

namespace Sys2Proof.Machine

/-! ### The log of a step -/

/-- The instruction makes a channel transaction at `s` (R172, R173): `UsesChannel` for the fetched instruction. -/
abbrev MakesTransaction (i : Instr) (s : State) : Prop :=
  (i.operation = .load ∨ i.operation = .store) ∧ isIo (effOperand i.operand s) = true

/-- What a step of `i` from `s` to `t` can add to the log for its channel transaction: nothing, if it makes none or does
not complete; the unit read or the unit sent, if it completes; or a failing answer, if that ends the run (R172, R173). -/
inductive ChannelLog (i : Instr) (s t : State) : List Event → Prop
  | nothing (h : t.status = .run → t.wait = .none → ¬MakesTransaction i s) : ChannelLog i s t []
  | read (u : Byte) (hr : t.status = .run) (hw : t.wait = .none) (hop : i.operation = .load)
      (hio : isIo (effOperand i.operand s) = true) (ha : t.acc = u.setWidth 16) : ChannelLog i s t [.input (.unit u)]
  | sent (hr : t.status = .run) (hw : t.wait = .none) (hop : i.operation = .store)
      (hio : isIo (effOperand i.operand s) = true) : ChannelLog i s t [.output (s.acc.setWidth 8) .ok]
  | failed (e : Event) (hne : t.status ≠ .run) (htaken : unitsTaken [e] = []) (hgiven : unitsGiven [e] = []) :
      ChannelLog i s t [e]

/-- The dispatch in RUN adds to the log what its channel transaction adds (R172, R173). -/
theorem channelLog_of_exec {i : Instr} {s t : State} {w : Wait} {ta : Answers Ack} {l : List Event}
    (hr : s.status = .run) (h : exec i (pastTrace w ta l s) = .next t) :
    ∃ io, t.env.log = l ++ io ∧ ChannelLog i s t io := by
  by_cases hch : MakesTransaction i s
  · cases i with
    | load o =>
      rcases execLoad_cases o (pastTrace w ta l s) with ⟨hmem, -⟩ | ⟨-, -, e⟩ | ⟨hio, u, -, e⟩ | ⟨-, x, rfl | rfl, -, e⟩
      · exact absurd (hch.2.symm.trans hmem) (by decide)
      all_goals cases e.symm.trans h
      · exact ⟨[], (List.append_nil l).symm, .nothing (by simp)⟩
      · exact ⟨_, rfl, .read u hr rfl rfl hio rfl⟩
      · exact ⟨_, rfl, .failed _ (by simp) rfl rfl⟩
      · exact ⟨_, rfl, .failed _ (by simp) rfl rfl⟩
    | store o =>
      rcases execStore_cases o (pastTrace w ta l s) with ⟨hmem, -⟩ | ⟨-, -, e⟩ | ⟨hio, -, e⟩ | ⟨-, -, e⟩
      · exact absurd (hch.2.symm.trans hmem) (by decide)
      all_goals cases e.symm.trans h
      · exact ⟨[], (List.append_nil l).symm, .nothing (by simp)⟩
      · exact ⟨_, rfl, .sent hr rfl rfl hio⟩
      · exact ⟨_, rfl, .failed _ (by simp) rfl rfl⟩
    | _ => simp [MakesTransaction, Instr.operation] at hch
  · have hquiet : i.operation ≠ .load ∧ i.operation ≠ .store ∨ isIo (effOperand i.operand s) = false := by
      rwa [not_and_or, not_or, Bool.not_eq_true] at hch
    have henv : t.env = (pastTrace w ta l s).env := (env_wait_of_exec (s := pastTrace w ta l s) hquiet h).1
    exact ⟨[], by simp [henv, pastTrace], .nothing fun _ _ => hch⟩

/-- A step in RUN adds to the log its trace record, which a completed step with the record due has sent, and then what
its channel transaction adds (R87, R88). -/
theorem log_of_cycle {map : OpcodeMap} {s t : State} (hr : s.status = .run) (h : cycle map s = .next t) :
    ∃ tr io, t.env.log = s.env.log ++ tr ++ io ∧ (∀ e ∈ tr, e.isTrace = true) ∧
      (t.status = .run → t.wait = .none → tr.length = if s.traceEn && s.wait.traceDue then 1 else 0) ∧
      ChannelLog (fetched map s) s t io := by
  rcases cycle_run_cases map hr with ⟨hno, e⟩ | ⟨-, -, -, e⟩ | ⟨hen, hdue, -, e⟩ | ⟨-, -, -, e⟩ <;> rw [e] at h
  · obtain ⟨io, hlog, hio⟩ := channelLog_of_exec (w := s.wait) (ta := s.env.traceAnswers) (l := s.env.log) hr h
    have hlen : (s.traceEn && s.wait.traceDue) = false := by rwa [Bool.and_eq_false_iff]
    exact ⟨[], io, by simpa using hlog, by simp, by simp [hlen], hio⟩
  · cases h
    exact ⟨[], [], by simp, by simp, by simp, .nothing (by simp)⟩
  · obtain ⟨io, hlog, hio⟩ := channelLog_of_exec (w := .none) (ta := (nextTrace s).2) hr h
    exact ⟨[.trace (traceRecord s) .ok], io, hlog, by simp [Event.isTrace], by simp [hen, hdue], hio⟩
  · cases h
    exact ⟨[.trace (traceRecord s) .failure], [], by simp, by simp [Event.isTrace], by simp, .nothing (by simp)⟩

/-! ### The units taken and given -/

/-- Trace transactions take no unit (R200). -/
theorem unitsTaken_of_trace {l : List Event} (h : ∀ e ∈ l, e.isTrace = true) : unitsTaken l = [] := by
  induction l using unitsTaken.induct <;> simp_all [unitsTaken, Event.isTrace]

/-- Trace transactions give no unit (R200). -/
theorem unitsGiven_of_trace {l : List Event} (h : ∀ e ∈ l, e.isTrace = true) : unitsGiven l = [] := by
  induction l using unitsGiven.induct <;> simp_all [unitsGiven, Event.isTrace]

/-- Settles O55: the trace record adds no unit, and the channel transaction's event is one of the four above. -/
theorem unitsOfAStep : Obligations.UnitsOfAStep := by
  refine ⟨fun _ _ => ⟨rfl, rfl⟩, fun map s t h => ?_⟩
  by_cases hr : s.status = .run
  · have hdone : Completes map s t ↔ t.status = .run ∧ t.wait = .none := by simp [Completes, hr, h]
    obtain ⟨tr, io, hlog, htr, -, hio⟩ := log_of_cycle hr h
    rw [hdone, hlog]
    simp only [unitsTaken_append, unitsGiven_append, unitsTaken_of_trace htr, unitsGiven_of_trace htr,
      List.append_nil]
    cases hio with
    | nothing hno =>
      refine ⟨?_, fun _ => by simp [unitsTaken], ?_, fun _ => by simp [unitsGiven]⟩
      · exact fun ⟨⟨ht, hw⟩, hop, hio⟩ => absurd ⟨.inr hop, hio⟩ (hno ht hw)
      · exact fun ⟨⟨ht, hw⟩, hop, hio⟩ => absurd ⟨.inl hop, hio⟩ (hno ht hw)
    | read u ht hw hop hio ha => simp [unitsTaken, unitsGiven, ht, hw, hop, hio, ha]
    | sent ht hw hop hio => simp [unitsTaken, unitsGiven, ht, hw, hop, hio]
    | failed e hne htaken hgiven => simp [hne, htaken, hgiven]
  · cases (cycle_of_ended map hr).symm.trans h
    simp [Completes, hr]

end Sys2Proof.Machine
end

section
/-! PROOFS. The statements about runs that do not end (70_reset_and_hazards.md R198 (a) to (c)). -/

namespace Sys2Proof.Machine

/-! ### A well answered step completes -/

/-- In RUN the dispatch completes, if it is no jump to its own address and its channel transaction is answered well
(R90). -/
theorem exists_completed_exec {i : Instr} {s : State} (hr : s.status = .run)
    (hj : ¬(i.operation = .jmp ∧ effOperand i.operand s = s.ctrl))
    (hin : MakesTransaction i s → i.operation = .load → ∃ u, (nextInput s).1 = some (.unit u))
    (hout : MakesTransaction i s → i.operation = .store → (nextOutput s).1 = some .ok) :
    ∃ t, exec i s = .next t ∧ t.status = .run ∧ t.wait = .none := by
  cases i with
  | and o => exact ⟨_, rfl, hr, rfl⟩
  | xor o => exact ⟨_, rfl, hr, rfl⟩
  | shl o => exact ⟨_, rfl, hr, rfl⟩
  | shr o => exact ⟨_, rfl, hr, rfl⟩
  | load o =>
    cases hio : isIo (effOperand o s)
    · exact ⟨_, exec_load_of_memory hio, hr, rfl⟩
    · obtain ⟨u, hu⟩ := hin ⟨.inl rfl, hio⟩ rfl
      exact ⟨_, exec_load_of_io hio (Prod.ext hu rfl), hr, rfl⟩
  | store o =>
    cases hio : isIo (effOperand o s)
    · exact ⟨_, exec_store_of_memory hio, hr, rfl⟩
    · exact ⟨_, exec_store_of_io hio (Prod.ext (hout ⟨.inr rfl, hio⟩ rfl) rfl), hr, rfl⟩
  | jmp o => exact ⟨_, jmpTransfersOrHalts.2.1 o s fun he => hj ⟨rfl, he⟩, hr, rfl⟩
  | jz o => exact ⟨_, exec_jz o s, hr, rfl⟩

/-- Settles O56: the trace part hands over to an instruction that completes. -/
theorem answeredStepsComplete : Obligations.AnsweredStepsComplete := by
  intro map s hr hj htrace hin hout
  rcases cycle_run_cases map hr with ⟨-, e⟩ | ⟨hen, hdue, hn, -⟩ | ⟨-, -, -, e⟩ | ⟨hen, hdue, hn, -⟩
  · obtain ⟨t, ht, hdone⟩ := exists_completed_exec hr hj hin hout
    exact ⟨t, hr, e.trans ht, hdone⟩
  · simp [htrace hen hdue] at hn
  · obtain ⟨t, ht, hdone⟩ := exists_completed_exec (s := pastTrace .none (nextTrace s).2 _ s) hr hj hin hout
    exact ⟨t, hr, e.trans ht, hdone⟩
  · simp [htrace hen hdue] at hn

/-! ### Answers for a number of steps -/

/-- The host answers the next `n` calls of each port well: Ok at the trace port, if there is tracing, a unit at the input
port and Ok at the output port (R177). -/
structure AnsweredFor (n : Nat) (s : State) : Prop where
  trace : s.traceEn = true → ∀ i, i < n → traceAt s i = some .ok
  input : ∀ i, i < n → ∃ u, inputAt s i = some (.unit u)
  output : ∀ i, i < n → outputAt s i = some .ok

/-- An instruction makes at most one call at each channel (R172, R173). -/
theorem channelAnswers_of_exec {i : Instr} {s t : State} (h : exec i s = .next t) :
    (t.env.inAnswers = s.env.inAnswers ∨ t.env.inAnswers = (nextInput s).2) ∧
    (t.env.outAnswers = s.env.outAnswers ∨ t.env.outAnswers = (nextOutput s).2) := by
  by_cases hi : i.operation ≠ .load ∧ i.operation ≠ .store ∨ isIo (effOperand i.operand s) = false
  · rw [(env_wait_of_exec hi h).1]
    exact ⟨.inl rfl, .inl rfl⟩
  · cases i with
    | load o =>
      rcases execLoad_cases o s with ⟨hio, -⟩ | ⟨-, -, e⟩ | ⟨-, u, -, e⟩ | ⟨-, x, -, -, e⟩
      · exact absurd (.inr hio) hi
      all_goals
        cases e.symm.trans h
        exact ⟨.inr rfl, .inl rfl⟩
    | store o =>
      rcases execStore_cases o s with ⟨hio, -⟩ | ⟨-, -, e⟩ | ⟨-, -, e⟩ | ⟨-, -, e⟩
      · exact absurd (.inr hio) hi
      all_goals
        cases e.symm.trans h
        exact ⟨.inl rfl, .inr rfl⟩
    | _ => simp [Instr.operation] at hi

/-- A call of the step makes at most one call at each channel (R172, R173). -/
theorem channelAnswers_of_cycle {map : OpcodeMap} {s t : State} (h : cycle map s = .next t) :
    (t.env.inAnswers = s.env.inAnswers ∨ t.env.inAnswers = (nextInput s).2) ∧
    (t.env.outAnswers = s.env.outAnswers ∨ t.env.outAnswers = (nextOutput s).2) := by
  by_cases hr : s.status = .run
  · rcases cycle_run_cases map hr with ⟨-, e⟩ | ⟨-, -, -, e⟩ | ⟨-, -, -, e⟩ | ⟨-, -, -, e⟩ <;> rw [e] at h
    · exact channelAnswers_of_exec h
    · cases h; exact ⟨.inl rfl, .inl rfl⟩
    · exact channelAnswers_of_exec (s := pastTrace .none (nextTrace s).2 _ s) h
    · cases h; exact ⟨.inl rfl, .inl rfl⟩
  · cases (cycle_of_ended map hr).symm.trans h
    exact ⟨.inl rfl, .inl rfl⟩

/-- Good answers for `n + 1` steps are good answers for `n` steps after one of them. -/
theorem AnsweredFor.of_cycle {map : OpcodeMap} {n : Nat} {s t : State} (h : AnsweredFor (n + 1) s)
    (hc : cycle map s = .next t) : AnsweredFor n t where
  trace hen := forall_answerAt_of_next _ (P := (· = some .ok))
    (h.trace ((configurationIsConstant map s t hc).1 ▸ hen)) (traceAnswers_of_cycle hc)
  input := forall_answerAt_of_next _ (P := fun x => ∃ u, x = some (.unit u)) h.input (channelAnswers_of_cycle hc).1
  output := forall_answerAt_of_next _ (P := (· = some .ok)) h.output (channelAnswers_of_cycle hc).2

/-- A step in RUN that is answered well and is at no self-jump completes, and the steps after it are answered well. -/
theorem AnsweredFor.exists_completes {map : OpcodeMap} {n : Nat} {s : State} (h : AnsweredFor (n + 1) s)
    (hr : s.status = .run) (hj : ¬SelfJump map s) : ∃ t, Completes map s t ∧ AnsweredFor n t := by
  obtain ⟨t, ht⟩ := answeredStepsComplete map s hr hj (fun hen _ => h.trace hen 0 n.succ_pos)
    (fun _ _ => h.input 0 n.succ_pos) (fun _ _ => h.output 0 n.succ_pos)
  exact ⟨t, ht, h.of_cycle ht.2.1⟩

/-- A state in RUN and held on nothing, answered well for `n` steps that meet no self-jump. -/
structure RunsOn (n : Nat) (s : State) : Prop where
  run : s.status = .run
  wait : s.wait = .none
  answered : AnsweredFor n s
  noSelfJump : ∀ j u, j < n → Host.Core.run core j s = .next u → ¬SelfJump defaultOpcodeMap u

/-- A completed step leaves such a state again, for one step less. -/
theorem RunsOn.exists_next {n : Nat} {s : State} (h : RunsOn (n + 1) s) :
    ∃ t, cycle defaultOpcodeMap s = .next t ∧ RunsOn n t := by
  obtain ⟨t, ⟨-, hc, hrun, hwait⟩, ht⟩ := h.answered.exists_completes h.run (h.noSelfJump 0 s n.succ_pos rfl)
  exact ⟨t, hc, hrun, hwait, ht, fun j u hj hu =>
    h.noSelfJump (j + 1) u (Nat.succ_lt_succ hj) ((run_succ_of_cycle j hc).trans hu)⟩

/-- Settles O57, step by step. -/
theorem answeredRunsGoOn : Obligations.AnsweredRunsGoOn := by
  intro k s hr hw htrace hin hout hj
  obtain ⟨t, ht, hend⟩ := exists_run_of_steps (fun _ _ => RunsOn.exists_next) k ⟨hr, hw, ⟨htrace, hin, hout⟩, hj⟩
  exact ⟨t, ht, hend.run, hend.wait⟩

/-! ### Loops -/

/-- Settles O43: the taken JZ leaves CTRL as it was. -/
theorem jzToItselfNeverEnds : Obligations.JzToItselfNeverEnds := by
  intro k s hr hte hw hop heff hacc
  refine run_of_cycle_eq_self ?_ k
  rw [cycle_of_untraced _ hr hte, fetched_eq_make hop]
  calc exec (.jz (fetched defaultOpcodeMap s).operand) s
      = .next { s with ctrl := effOperand (fetched defaultOpcodeMap s).operand s, wait := .none } :=
        jzTransfersOnZero.1 _ s hacc
    _ = .next s := by rw [heff, ← hw]

/-- What a loop in cell 0 can execute at `s`: no JMP or JZ, and a STORE only on the I/O half (R92). -/
structure LoopInstr (i : Instr) (s : State) : Prop where
  notJmp : i.operation ≠ .jmp
  notJz : i.operation ≠ .jz
  storeIo : i.operation = .store → isIo (effOperand i.operand s) = true

/-- The ALU instructions and LOAD, and a STORE that makes a transaction, are such instructions (R198 (a)). -/
theorem loopInstr_of_operation {i : Instr} {s : State}
    (h : i.operation = .and ∨ i.operation = .xor ∨ i.operation = .shl ∨ i.operation = .shr ∨ i.operation = .load ∨
      i.operation = .store ∧ MakesTransaction i s) : LoopInstr i s := by
  rcases h with h | h | h | h | h | ⟨h, -, hio⟩
  case inr.inr.inr.inr.inr => exact ⟨by simp [h], by simp [h], fun _ => hio⟩
  all_goals exact ⟨by simp [h], by simp [h], by simp [h]⟩

/-- `u` is in RUN at CTRL 0, with the memory and TRACE_EN of `s`: what every turn of a loop in cell 0 keeps. -/
structure LoopState (s u : State) : Prop where
  run : u.status = .run
  ctrl : u.ctrl = 0
  mem : u.mem = s.mem
  traceEn : u.traceEn = s.traceEn

/-- At CTRL 0 the candidate is 0: L(0) = 0 (R92). -/
theorem candidate_of_ctrl_zero {s : State} (h : s.ctrl = 0) : candidate s = 0 := by
  rw [candidate, h]
  rfl

section
variable {map : OpcodeMap} {s u v : State}

/-- The states of a loop fetch one instruction. -/
theorem LoopState.fetched_eq (h : LoopState s u) (hs : s.ctrl = 0) : fetched map u = fetched map s := by
  rw [fetched, fetchWord_congr (h.ctrl.trans hs.symm) h.mem, fetched]

/-- The states of a loop agree on whether their step makes a channel transaction. -/
theorem LoopState.usesChannel_iff (h : LoopState s u) (hs : s.ctrl = 0) : UsesChannel map u ↔ UsesChannel map s := by
  rw [UsesChannel, h.fetched_eq hs, effOperand_congr _ h.mem]

/-- A loop is at no self-jump. -/
theorem LoopState.not_selfJump (h : LoopState s u) (hs : s.ctrl = 0) (hi : LoopInstr (fetched map s) s) :
    ¬SelfJump map u := fun hj => hi.notJmp (h.fetched_eq hs ▸ hj.1)

/-- A completed step goes from one state of a loop to another: CTRL takes the candidate, and no cell is written. -/
theorem LoopState.of_completes (h : LoopState s u) (hs : s.ctrl = 0) (hi : LoopInstr (fetched map s) s)
    (hc : Completes map u v) : LoopState s v := by
  have hfetched : fetched map u = fetched map s := h.fetched_eq hs
  have hfalls : FallsThrough map u := by
    rw [FallsThrough, hfetched]
    exact ⟨hi.notJmp, fun hz => absurd hz hi.notJz⟩
  have hmem : v.mem = u.mem := by
    refine (mem_of_cycle hc.2.1).resolve_right fun ⟨hop, hno, _⟩ => ?_
    rw [hfetched] at hop hno
    rw [effOperand_congr _ h.mem, hi.storeIo hop] at hno
    cases hno
  exact ⟨hc.2.2.1, (hc.ctrl_eq_candidate hfalls).trans (candidate_of_ctrl_zero h.ctrl), hmem.trans h.mem,
    (configurationIsConstant map u v hc.2.1).1.trans h.traceEn⟩

/-- Without tracing, an instruction that uses no channel takes a loop on and leaves the host's side alone (R45). -/
theorem LoopState.exists_next_of_quiet (h : LoopState s u) (hs : s.ctrl = 0) (hi : LoopInstr (fetched map s) s)
    (hte : s.traceEn = false)
    (hquiet : (fetched map s).operation ≠ .load ∧ (fetched map s).operation ≠ .store) :
    ∃ v, cycle map u = .next v ∧ LoopState s v ∧ v.env = u.env := by
  have hute : u.traceEn = false := h.traceEn.trans hte
  rw [← h.fetched_eq hs] at hquiet
  obtain ⟨v, hv⟩ := answeredStepsComplete map u h.run (h.not_selfJump hs hi) (fun hen => by simp [hute] at hen)
    (fun _ hload => absurd hload hquiet.1) (fun _ hstore => absurd hstore hquiet.2)
  exact ⟨v, hv.2.1, h.of_completes hs hi hv,
    ((channelsOnlyOnTheIoHalf map u v h.run hute hv.2.1).1 (.inl hquiet)).1⟩

end

/-- Settles O44: every step takes the loop on and leaves the host's side alone. -/
theorem cellZeroLoopsForEver : Obligations.CellZeroLoopsForEver := by
  intro k s hr hte hs hop
  have hi : LoopInstr (fetched defaultOpcodeMap s) s := loopInstr_of_operation (by tauto)
  have hquiet : (fetched defaultOpcodeMap s).operation ≠ .load ∧ (fetched defaultOpcodeMap s).operation ≠ .store := by
    rcases hop with h | h | h | h <;> simp [h]
  have hstep (_ : Nat) (u : State) (hu : LoopState s u ∧ u.env = s.env) :
      ∃ v, cycle defaultOpcodeMap u = .next v ∧ LoopState s v ∧ v.env = s.env := by
    obtain ⟨v, hv, hloop, henv⟩ := hu.1.exists_next_of_quiet hs hi hte hquiet
    exact ⟨v, hv, hloop, henv.trans hu.2⟩
  obtain ⟨t, ht, hloop, henv⟩ :=
    exists_run_of_steps (P := fun _ u => LoopState s u ∧ u.env = s.env) hstep k ⟨⟨hr, hs, rfl, rfl⟩, rfl⟩
  exact ⟨t, ht, hloop.ctrl, hloop.run, hloop.mem, henv⟩

/-- The number of transactions a completed step makes, if it begins held on nothing (R87, R172, R173). -/
def transactionsPerStep (map : OpcodeMap) (s : State) : Nat :=
  (if s.traceEn then 1 else 0) + if UsesChannel map s then 1 else 0

/-- A completed step that begins held on nothing answers each of its transactions once (R89). -/
theorem Completes.log_length {map : OpcodeMap} {s t : State} (h : Completes map s t) (hw : s.wait = .none) :
    t.env.log.length = s.env.log.length + transactionsPerStep map s := by
  obtain ⟨hr, hc, hrun, hwait⟩ := h
  obtain ⟨tr, io, hlog, -, htr, hio⟩ := log_of_cycle hr hc
  have htr : tr.length = if s.traceEn then 1 else 0 := by simpa [hw, Wait.traceDue] using htr hrun hwait
  have hio : io.length = if UsesChannel map s then 1 else 0 := by
    cases hio with
    | nothing hno => rw [if_neg (hno hrun hwait), List.length_nil]
    | read u _ _ hop hio _ => rw [if_pos ⟨.inl hop, hio⟩, List.length_singleton]
    | sent _ _ hop hio => rw [if_pos ⟨.inr hop, hio⟩, List.length_singleton]
    | failed e hne => exact absurd hrun hne
  rw [hlog, List.length_append, List.length_append, htr, hio, transactionsPerStep, Nat.add_assoc]

/-- A state of the loop that starts in `s`, held on nothing and answered well for `n` steps, after which the log will be
`total` events long. -/
structure AnsweredLoop (map : OpcodeMap) (s : State) (total n : Nat) (u : State) : Prop where
  loop : LoopState s u
  wait : u.wait = .none
  answered : AnsweredFor n u
  log : u.env.log.length + n * transactionsPerStep map s = total

/-- A step takes such a loop on, for one step less: it makes the transactions of the first step. -/
theorem AnsweredLoop.exists_next {map : OpcodeMap} {s u : State} {total n : Nat}
    (h : AnsweredLoop map s total (n + 1) u) (hs : s.ctrl = 0) (hi : LoopInstr (fetched map s) s) :
    ∃ v, cycle map u = .next v ∧ AnsweredLoop map s total n v := by
  obtain ⟨v, hv, hans⟩ := h.answered.exists_completes h.loop.run (h.loop.not_selfJump hs hi)
  have hcount : transactionsPerStep map u = transactionsPerStep map s := by
    simp only [transactionsPerStep, h.loop.traceEn, h.loop.usesChannel_iff hs]
  have hlog : v.env.log.length + n * transactionsPerStep map s = total := by
    rw [hv.log_length h.wait, hcount, ← h.log, Nat.succ_mul]
    omega
  exact ⟨v, hv.2.1, h.loop.of_completes hs hi hv, hv.2.2.2, hans, hlog⟩

/-- Settles O58, step by step, the log's final length being fixed at the start. -/
theorem answeredLoopsNeverEnd : Obligations.AnsweredLoopsNeverEnd := by
  intro k s hr hw hs hop htrace hin hout
  have hi : LoopInstr (fetched defaultOpcodeMap s) s := loopInstr_of_operation hop
  have hstart : AnsweredLoop defaultOpcodeMap s
      (s.env.log.length + k * transactionsPerStep defaultOpcodeMap s) k s :=
    ⟨⟨hr, hs, rfl, rfl⟩, hw, ⟨htrace, hin, hout⟩, rfl⟩
  obtain ⟨t, ht, hloop, hwait, -, hlog⟩ := exists_run_of_steps (fun _ _ h => h.exists_next hs hi) k hstart
  exact ⟨t, ht, hloop.ctrl, hloop.run, hwait, hloop.mem, (Nat.zero_mul _ ▸ hlog :)⟩

end Sys2Proof.Machine
end
